-- ==== Sys2Proof/Word.lean ====
section
/-! DEFINITION. The value types of 00_scope.md R6, R8 to R10: bytes, 32-bit register words and byte sequences. -/

namespace Sys2Proof

/-- A byte, 0 to 255, unsigned (R6, R9): a buffer element, a symbol, a rank, a run count, a run value. -/
abbrev Byte := BitVec 8

/-- A host-visible register's 32-bit word, unsigned (R8); also the primary index in a register or latch (R25). -/
abbrev Word := BitVec 32

/-- A ByteSequence: index 0 is the first byte in time and in address order (R10). -/
abbrev Bytes := List Byte

end Sys2Proof
end

