-- ==== Sys2Proof/Config.lean ====
section
/-! DEFINITION. What one instance of the block fixes (the capacity CAP, 00_scope.md R7) and the free values: content the spec
calls unspecified. Every constant here is opaque, so no proof can use a value of it. -/

namespace Sys2Proof.Config

/-- The instance's capacity before the lower bound of R7 is applied. DESIGN CHOICE (log 3): no value. -/
opaque capChoice : Word

/-- CAP of the instance that `State.reset` describes: some value with 6 <= CAP <= 2^32 - 1 (R7, D7); which one is open. -/
def cap : Word := if capChoice.toNat < 6 then 6 else capChoice

/-- The byte that `LOAD "text"` loads for a character without an ASCII code. DESIGN CHOICE (log 22): R82 is silent on it. -/
opaque freeCharByte (c : Char) : Byte

/-! Unspecified content of the hidden elements after a call or a RESET (R32 to R36, R211, R230, U4, U5; log 4).
The argument `n` is the model's counter `State.tick`: each discard gives fresh values. -/

/-- `SYM[p]` after the `n`-th discard (R32, R121). -/
opaque freeSym (n p : Nat) : Byte
/-- `ROWS` after the `n`-th discard (R33). -/
opaque freeRows (n : Nat) : List Bytes
/-- `PERM` after the `n`-th discard (R33). -/
opaque freePerm (n : Nat) : List Nat
/-- `RDET.have` after the `n`-th discard (R34). -/
opaque freeRdetHave (n : Nat) : Bool
/-- `RDET.val` after the `n`-th discard (R34). -/
opaque freeRdetVal (n : Nat) : Byte
/-- `RDET.cnt` after the `n`-th discard (R34). -/
opaque freeRdetCnt (n : Nat) : Byte
/-- `XBUF` after the `n`-th discard (R35), before it is cut to CAP bytes. -/
opaque freeXbuf (n : Nat) : Bytes
/-- `PIDX` after the `n`-th discard (R35). -/
opaque freePidx (n : Nat) : Word
/-- `LCMD` after the `n`-th discard (R36, U4). -/
opaque freeLcmd (n : Nat) : BitVec 4
/-- `LILL` after the `n`-th discard (R36, U4). -/
opaque freeLill (n : Nat) : Bool

end Sys2Proof.Config
end

