-- ==== Sys2Proof/Syntax.lean ====
section
/-! DEFINITION. The ten commands (30_encoding.md R71), the host's transactions (45_host_interface.md R180 to R190), the events
of a schedule, and the script notation (30_encoding.md R82, R84). -/

namespace Sys2Proof

/-- The ten commands of R71, one constructor for each row of spec/opcode_table.json. A command has no operand field: its
operands are implicit (R85). -/
inductive Instr where
  | compress | decompress
  | bwtFwd | bwtInv
  | mtfEnc | mtfDec
  | rleEnc | rleDec
  | serWr | serRd
deriving DecidableEq, Repr

/-- The block's five units (R2), as the field UNIT of R70 names them. -/
inductive BlockUnit where
  | pipelineControl | bwtPermutationSort | mtfRankEncoder | rleRunDetector | compressionSerializer
deriving DecidableEq, Repr

/-- The field DIR of R70: toward the compressed form, or toward plaintext. -/
inductive Direction where
  | compressing | decompressing
deriving DecidableEq, Repr

/-- What a host may attempt on the block's interface: the transactions of R181 to R183, R187, R188, the write to a register
number they are made of, and the single-byte accesses of R187 and R190. -/
inductive Transaction where
  /-- `H_LOAD(seq)`, R181. -/
  | load (seq : Bytes)
  /-- `H_SETIDX(v)`, R182. -/
  | setIdx (v : Word)
  /-- `H_START(w)`, R183. -/
  | start (w : Word)
  /-- `H_READ_OUT`, R187. -/
  | readOut
  /-- `H_READ_REG(reg)`, R188. -/
  | readReg (reg : Nat)
  /-- A write to a register by number: START for CMD, `H_SETIDX` for IDX, refused for every other (R30, R190). -/
  | writeReg (reg : Nat) (v : Word)
  /-- A single-byte read of the OBUF space (R187), refused at or beyond OLEN (R190). -/
  | readObuf (off : Nat)
  /-- A single-byte read of the IBUF space by the host, always refused (R190). -/
  | readIbuf (off : Nat)
deriving DecidableEq, Repr

/-- One turn of a schedule: who moves next (R180). The list of turns still to come is the environment's (R43, log 1). -/
inductive Event where
  /-- The host attempts a transaction. -/
  | host (t : Transaction)
  /-- The core has the turn: it takes `COMPLETE` if `STATE = BUSY` and otherwise does nothing (R60). -/
  | core
  /-- The environment takes `RESET` (R230). -/
  | reset
  /-- The host's pseudo-operation XFER: `READ`, then `LOAD` of the sequence read (R84). -/
  | xfer
deriving DecidableEq, Repr

/-- A line of the script notation (R82, R84). -/
inductive ScriptLine where
  | load (seq : Bytes)
  /-- `LOAD "text"`: the characters' ASCII codes (R82; the spec marks the codes as general knowledge). For a character
without one the spec is silent (log 22). -/
  | loadText (text : List Char)
  | setIdx (v : Word)
  | start (i : Instr)
  | startWord (w : Word)
  | wait
  | read
  | rd (reg : Nat)
  | xfer
  | call (i : Instr) (seq : Bytes)
  | roundtrip (seq : Bytes)
deriving DecidableEq, Repr

end Sys2Proof
end

