-- ==== Sys2Proof/WellFormed.lean ====
section
/-! DEFINITION. Which terms of the syntax make sense on their own: the static part of 45_host_interface.md R190's list of
refused accesses, for a block of capacity `cap`. -/

namespace Sys2Proof

/-- Every command is well-formed: it has no field that could be wrong (30_encoding.md R70, R85). -/
def Instr.wf : Instr → Bool
  | .compress | .decompress | .bwtFwd | .bwtInv | .mtfEnc | .mtfDec | .rleEnc | .rleDec | .serWr | .serRd => true

/-- The register numbers that exist, 0 to 6 (10_state.md R30). -/
def registerExists (reg : Nat) : Bool := decide (reg ≤ 6)

/-- The registers the host may write by number: CMD (a START) and IDX (10_state.md R30). -/
def registerWritable (reg : Nat) : Bool := reg == 0 || reg == 3

/-- A transaction that some state accepts: a load that fits, an existing register, a writable one, no read of IBUF, no
offset that lies outside the OBUF space in every state (R181, R188, R190, 20_memory.md R50). -/
def Transaction.wf (cap : Nat) : Transaction → Bool
  | .load seq => decide (seq.length ≤ cap)
  | .setIdx _ => true
  | .start _ => true
  | .readOut => true
  | .readReg reg => registerExists reg
  | .writeReg reg _ => registerWritable reg
  | .readObuf off => decide (off < cap)
  | .readIbuf _ => false

/-- A turn of a schedule is well-formed if the transaction it attempts is. -/
def Event.wf (cap : Nat) : Event → Bool
  | .host t => t.wf cap
  | .core => true
  | .reset => true
  | .xfer => true

/-- A schedule is well-formed if each of its turns is. -/
def agendaWf (cap : Nat) (agenda : List Event) : Bool := agenda.all (Event.wf cap)

end Sys2Proof
end

