-- ==== Sys2Proof/Decode.lean ====
section
/-! DEFINITION. The command word: format C (30_encoding.md R70), the ten assignments (R71) and the illegal words (R72). A word is
given to the block whole, as one 32-bit write to CMD, so it has no byte order (20_memory.md R52). -/

namespace Sys2Proof

/-- Why a word is no command (R72). -/
inductive DecodeError where
  /-- `ZERO` (bits 31:4) is not 0. -/
  | zeroFieldNotZero
  /-- `UNIT` is 5, 6 or 7, which are not assigned. -/
  | unitNotAssigned
deriving DecidableEq, Repr

/-- Field ZERO, bits 31:4 (R70). -/
def zeroField (w : Word) : BitVec 28 := w.extractLsb' 4 28
/-- Field UNIT, bits 3:1 (R70). -/
def unitField (w : Word) : BitVec 3 := w.extractLsb' 1 3
/-- Field DIR, bit 0 (R70). -/
def dirField (w : Word) : BitVec 1 := w.extractLsb' 0 1
/-- Field OPC = UNIT*2 + DIR, bits 3:0: what LCMD latches (R70, R183). -/
def opcField (w : Word) : BitVec 4 := w.extractLsb' 0 4

/-- The unit that a value of UNIT names (R70). -/
def decodeUnit (u : BitVec 3) : Option BlockUnit :=
  match u.toNat with
  | 0 => some .pipelineControl
  | 1 => some .bwtPermutationSort
  | 2 => some .mtfRankEncoder
  | 3 => some .rleRunDetector
  | 4 => some .compressionSerializer
  | _ => none

/-- The direction that DIR names (R70). -/
def decodeDir (d : BitVec 1) : Direction := if d = 0#1 then .compressing else .decompressing

/-- The command of a unit and a direction (R71). -/
def commandOf : BlockUnit → Direction → Instr
  | .pipelineControl, .compressing => .compress
  | .pipelineControl, .decompressing => .decompress
  | .bwtPermutationSort, .compressing => .bwtFwd
  | .bwtPermutationSort, .decompressing => .bwtInv
  | .mtfRankEncoder, .compressing => .mtfEnc
  | .mtfRankEncoder, .decompressing => .mtfDec
  | .rleRunDetector, .compressing => .rleEnc
  | .rleRunDetector, .decompressing => .rleDec
  | .compressionSerializer, .compressing => .serWr
  | .compressionSerializer, .decompressing => .serRd

/-- The command a 32-bit word is, matched on the full word (R71), or why it is none (R72). -/
def decode (w : Word) : Except DecodeError Instr :=
  if zeroField w = 0#28 then
    match decodeUnit (unitField w) with
    | some u => .ok (commandOf u (decodeDir (dirField w)))
    | none => .error .unitNotAssigned
  else .error .zeroFieldNotZero

/-- Whether a word is illegal: the value START latches into LILL (R72, R183). -/
def illegalWord (w : Word) : Bool :=
  match decode w with
  | .ok _ => false
  | .error _ => true

/-- The command a latched OPC selects at completion (45_host_interface.md R184); none for the values 10 to 15. -/
def decodeLatch (lcmd : BitVec 4) : Option Instr := (decode (lcmd.setWidth 32)).toOption

/-- A command's unit, the third column of R71. -/
def Instr.unit : Instr → BlockUnit
  | .compress | .decompress => .pipelineControl
  | .bwtFwd | .bwtInv => .bwtPermutationSort
  | .mtfEnc | .mtfDec => .mtfRankEncoder
  | .rleEnc | .rleDec => .rleRunDetector
  | .serWr | .serRd => .compressionSerializer

/-- A command's direction (R70): compress, forward, encode and write are 0, the others 1. -/
def Instr.direction : Instr → Direction
  | .compress | .bwtFwd | .mtfEnc | .rleEnc | .serWr => .compressing
  | .decompress | .bwtInv | .mtfDec | .rleDec | .serRd => .decompressing

/-- The value of UNIT for a unit (R70). -/
def encodeUnit : BlockUnit → BitVec 3
  | .pipelineControl => 0
  | .bwtPermutationSort => 1
  | .mtfRankEncoder => 2
  | .rleRunDetector => 3
  | .compressionSerializer => 4

/-- The value of DIR for a direction (R70). -/
def encodeDir : Direction → BitVec 1
  | .compressing => 0
  | .decompressing => 1

/-- The word of a command: ZERO, UNIT, DIR from the most significant end (R70, R71). -/
def encode (i : Instr) : Word := (0#28 ++ encodeUnit i.unit) ++ encodeDir i.direction

/-- The word with the table's bits: bit 0 is the least significant bit, bits above `nbits` are 0. -/
def tableWord (nbits w : Nat) : Word := BitVec.ofNat 32 (w % 2 ^ nbits)

/-- The command the decoder reads from a row of spec/opcode_table.json. -/
def decodeTableWord (nbits w : Nat) : Option Instr := (decode (tableWord nbits w)).toOption

end Sys2Proof
end

