-- ==== Sys2Proof/Machine/State.lean ====
section
/-! DEFINITION. The state of one block (10_state.md R20), as plain data, and the state after reset (R42). -/

namespace Sys2Proof.Machine

/-- `STATUS.STATE` (R27): its four values fill the two bits of the field. -/
inductive CallState where
  | idle | busy | done | error
deriving DecidableEq, Repr

/-- `ERR.KIND` (R28, 30_encoding.md R80). `encodingOverflow` has code 4 and is never raised (60_exceptions.md R204). -/
inductive ErrorKind where
  | noError | truncatedHeader | truncatedPayload | corruptTransform | encodingOverflow | illegalCommand | capacityExceeded
deriving DecidableEq, Repr

/-- `STAGE` (R37). -/
inductive Stage where
  | none | bwt | mtf | rle | ser
deriving DecidableEq, Repr

/-- `RDET`, the run detector (R34): `held` is the spec's `have`, set while a run is open. -/
structure RunDetector where
  held : Bool
  val : Byte
  cnt : Byte
deriving DecidableEq, Repr

/-- The two buffers (R21, R23, 20_memory.md R50). The byte at offset `i` is element `i`; an offset at or beyond the length
holds no byte (R59, U1), so `ILEN` and `OLEN` are the two lengths (log 11). -/
structure Memory where
  ibuf : Bytes
  obuf : Bytes
deriving DecidableEq, Repr

/-- The hidden working storage (R32 to R35, R37). -/
structure Working where
  /-- `SYM`, position 0 the front (R32). -/
  sym : Bytes
  /-- `ROWS` (R33). -/
  rows : List Bytes
  /-- `PERM` (R33). -/
  perm : List Nat
  /-- `RDET` (R34). -/
  rdet : RunDetector
  /-- `XBUF` (R35). -/
  xbuf : Bytes
  /-- `PIDX` (R35). -/
  pidx : Word
  /-- `STAGE` (R37). -/
  stage : Stage
deriving DecidableEq, Repr

/-- A value the block returned to the host: a sequence (R187), a register (R188) or one byte of OBUF (R187). -/
inductive Reply where
  | sequence (out : Bytes)
  | register (v : Word)
  | byte (b : Byte)
deriving DecidableEq, Repr

/-- Why the machine stops with a fault. -/
inductive Fault where
  /-- Raised by the core's turn when `STATE = BUSY`, `LILL = 0` and `LCMD` is 10 to 15: R184 gives no operation there and says
  those values "occur only with `LILL = 1`". Safe: no state that satisfies the invariant reaches it (log 9). -/
  | unassignedLatch
deriving DecidableEq, Repr

/-- Why a step has no meaning. All but the first are R190's refused host transactions: the spec gives them "no meaning and no
state change", and the model ends the run there, which is safe (log 8). -/
inductive Refusal where
  /-- Raised by an arm of `exec` that has no meaning yet; safe. No arm raises it. -/
  | notModelled (mnemonic : String)
  /-- Raised by a host transaction that R31 refuses while `STATE = BUSY`; safe. -/
  | blockBusy
  /-- Raised by `H_LOAD` of more than CAP bytes (R181); safe. -/
  | loadTooLong
  /-- Raised by an access to a register number above 6 (R30); safe. -/
  | noSuchRegister (reg : Nat)
  /-- Raised by a write to STATUS, ERR, OLEN or CAPR, or a direct write to ILEN (R190); safe. -/
  | registerNotWritable (reg : Nat)
  /-- Raised by a read of the OBUF space at or beyond OLEN (R190); safe. -/
  | noByteInObuf (off : Nat)
  /-- Raised by a host read of the IBUF space (R190); safe. -/
  | ibufNotReadable (off : Nat)
  /-- Raised by XFER when `STATE` is not DONE (30_encoding.md R84); safe. -/
  | xferNotDone
deriving DecidableEq, Repr

/-- The complete state of one block (R20), followed by three fields of the model's own (log 1, log 2, log 4). -/
structure State where
  /-- `IBUF` with `ILEN`, `OBUF` with `OLEN` (R21 to R24). -/
  mem : Memory
  /-- `IDX` (R25). -/
  idx : Word
  /-- `CMD` (R26). -/
  cmd : Word
  /-- `STATUS.STATE` (R27). -/
  status : CallState
  /-- `ERR.KIND` (R28). -/
  err : ErrorKind
  /-- `CAPR`, the capacity CAP of this instance (R29). -/
  capr : Word
  /-- `LCMD` (R36). -/
  lcmd : BitVec 4
  /-- `LILL` (R36). -/
  lill : Bool
  /-- `SYM`, `ROWS`, `PERM`, `RDET`, `XBUF`, `PIDX`, `STAGE` (R32 to R37). -/
  work : Working
  /-- Model's own: the turns still to come (log 1). -/
  agenda : List Event
  /-- Model's own: what the block has returned to the host, newest first (log 2). -/
  replies : List Reply
  /-- Model's own: counts the discards of hidden content, the argument of the free values (log 4). -/
  tick : Nat
deriving DecidableEq, Repr

/-- CAP as a number (R7, R29). -/
def State.cap (s : State) : Nat := s.capr.toNat

/-- The hidden storage `State.reset` names, where the spec says unspecified: all zero or empty (log 5). `STAGE = S_NONE` is
the spec's (R42). -/
def Working.reset : Working where
  sym := List.replicate 256 0
  rows := []
  perm := []
  rdet := ⟨false, 0, 0⟩
  xbuf := []
  pidx := 0
  stage := .none

/-- The state after reset of an instance of capacity `capr` (R42), with nothing scheduled. -/
def State.resetWith (capr : Word) : State where
  mem := ⟨[], []⟩
  idx := 0
  cmd := 0
  status := .idle
  err := .noError
  capr := capr
  lcmd := 0
  lill := false
  work := Working.reset
  agenda := []
  replies := []
  tick := 0

/-- The state after reset of the configured instance (R42, R230). -/
def State.reset : State := State.resetWith Config.cap

end Sys2Proof.Machine
end

