-- ==== Sys2Proof/Machine/Ops.lean ====
section
/-! DEFINITION. The operations every meaning shares: 32-bit big-endian packing, buffer access, the START step, the two endings of a
call (success, and the entry into an error, which is this block's exception), the composition of stages, and RESET. -/

namespace Sys2Proof.Machine

/-! ### Big-endian packing (00_scope.md R12) -/

/-- `bits[hi:lo]` of R9 for one byte of a word: the byte whose least significant bit is bit `lo`. -/
def byteAt (v : Word) (lo : Nat) : Byte := v.extractLsb' lo 8

/-- `be32(v)`: four bytes, most significant first (R12). -/
def be32 (v : Word) : Bytes := [byteAt v 24, byteAt v 16, byteAt v 8, byteAt v 0]

/-- `unbe32` of four bytes, `b0` the first (R12, 30_encoding.md R75). -/
def unbe32 (b0 b1 b2 b3 : Byte) : Word := (b0 ++ b1) ++ (b2 ++ b3)

/-! ### Buffers (20_memory.md R50, R54) -/

/-- The two byte spaces of R50. -/
inductive Space where
  | ibuf | obuf
deriving DecidableEq, Repr

/-- The sequence a space holds; its length is ILEN or OLEN (R21 to R24). -/
def Memory.space (m : Memory) : Space → Bytes
  | .ibuf => m.ibuf
  | .obuf => m.obuf

/-- One byte of a space; none at or beyond the space's length, where no byte is (R59, U1). -/
def Memory.byte (m : Memory) (sp : Space) (off : Nat) : Option Byte := (m.space sp)[off]?

/-- `MemRead(space, addr, n)`: the `n` bytes from `addr`, none unless `addr + n <= len(space)` (R54). -/
def Memory.read (m : Memory) (sp : Space) (addr n : Nat) : Option Bytes :=
  if addr + n ≤ (m.space sp).length then some (((m.space sp).drop addr).take n) else none

/-- The form every memory of the machine has: neither buffer is longer than CAP (R21, R23). A sequence is its own canonical
form: equal memories are equal data. -/
def Memory.wf (cap : Nat) (m : Memory) : Bool := decide (m.ibuf.length ≤ cap) && decide (m.obuf.length ≤ cap)

/-! ### Single accesses to the buffer spaces (R54)

`MemWrite` reaches every offset below CAP, also one at or beyond the length, where a sequence has no element. So the single
accesses act on the spaces themselves: CAP slots, and beside them the length register, which `MemWrite` does not write. The
machine's steps move whole sequences (R54, R181, R187), and State keeps the sequences alone (U1, log 11, log 25). -/

/-- One buffer space: a slot for each offset (R50), `none` where it holds no value (R59), and ILEN or OLEN. -/
structure ByteSpace where
  slots : List (Option Byte)
  len : Nat
deriving DecidableEq, Repr

/-- The space of CAP slots that holds a sequence from offset 0 on and no value beyond it (R59). -/
def byteSpace (cap : Nat) (seq : Bytes) : ByteSpace :=
  ⟨seq.map some ++ List.replicate (cap - seq.length) none, seq.length⟩

/-- The two buffer spaces. -/
structure Spaces where
  ibuf : ByteSpace
  obuf : ByteSpace
deriving DecidableEq, Repr

/-- The spaces of a memory of the machine. -/
def Memory.spaces (cap : Nat) (m : Memory) : Spaces := ⟨byteSpace cap m.ibuf, byteSpace cap m.obuf⟩

/-- One of the two spaces. -/
def Spaces.get (σ : Spaces) : Space → ByteSpace
  | .ibuf => σ.ibuf
  | .obuf => σ.obuf

/-- The spaces with another in one place. -/
def Spaces.set (σ : Spaces) (sp : Space) (b : ByteSpace) : Spaces :=
  match sp with
  | .ibuf => { σ with ibuf := b }
  | .obuf => { σ with obuf := b }

/-- `MemRead(space, addr, n)` (R54): requires `addr + n <= len(space)`; none too where one of the slots holds no value (log 25). -/
def Spaces.read (σ : Spaces) (sp : Space) (addr n : Nat) : Option Bytes :=
  if addr + n ≤ (σ.get sp).len then (((σ.get sp).slots.drop addr).take n).mapM id else none

/-- `MemWrite(space, addr, n, v)` with `n = |v|` (R54): requires `addr + n <= CAP`, the number of slots, and replaces those `n`
bytes by `v`; the length register stays (log 25). -/
def Spaces.write (σ : Spaces) (sp : Space) (addr : Nat) (v : Bytes) : Option Spaces :=
  let b := σ.get sp
  if addr + v.length ≤ b.slots.length then
    some (σ.set sp { b with slots := b.slots.take addr ++ v.map some ++ b.slots.drop (addr + v.length) })
  else none

/-- A length register written: the `ILEN <- |seq|` of R181 after the accesses of `H_LOAD`. -/
def Spaces.setLen (σ : Spaces) (sp : Space) (len : Nat) : Spaces := σ.set sp { σ.get sp with len := len }

/-- Each space has CAP slots and a length of at most CAP (R50, R21, R23). -/
def Spaces.wf (cap : Nat) (σ : Spaces) : Bool :=
  decide (σ.ibuf.slots.length = cap ∧ σ.ibuf.len ≤ cap) && decide (σ.obuf.slots.length = cap ∧ σ.obuf.len ≤ cap)

/-- A space as (address, byte) cells, addresses rising from 0. -/
def Memory.cells (m : Memory) (sp : Space) : List Host.Cell := (m.space sp).zipIdx.map fun p => (p.2, p.1)

/-! ### Hidden storage between calls -/

/-- The hidden storage after the `n`-th discard: unspecified content, each element a free value (R211, U4, log 4), and
`STAGE = S_NONE` (R37, R185). `SYM` still has 256 entries and `XBUF` at most CAP (R32, R35). -/
def Working.free (cap n : Nat) : Working where
  sym := (List.range 256).map (Config.freeSym n)
  rows := Config.freeRows n
  perm := Config.freePerm n
  rdet := ⟨Config.freeRdetHave n, Config.freeRdetVal n, Config.freeRdetCnt n⟩
  xbuf := (Config.freeXbuf n).take cap
  pidx := Config.freePidx n
  stage := .none

/-- The hidden elements are "discarded on return (or on error)" (R185, R211): outside the call that uses them the working storage
and the latches LCMD and LILL hold any value (U4). -/
def discardWork (s : State) : State :=
  { s with
    lcmd := Config.freeLcmd s.tick
    lill := Config.freeLill s.tick
    work := Working.free s.cap s.tick
    tick := s.tick + 1 }

/-! ### The two endings of a call (45_host_interface.md R185, R186) -/

/-- What an operation hands over when it succeeds: its output sequence, the index if it delivers one (BWT_FWD and SER_RD),
and the hidden storage as it left it. -/
structure Handover where
  seq : Bytes
  idx : Option Word
  work : Working
deriving DecidableEq, Repr

/-- A successful completion: the output to OBUF and OLEN, a carried index to IDX, `STATE` to DONE, `KIND` to NONE, the input
consumed (R185, R186). -/
def succeed (h : Handover) (s : State) : State :=
  discardWork { s with
    mem := { ibuf := [], obuf := h.seq }
    idx := h.idx.getD s.idx
    status := .done
    err := .noError }

/-- ERROR ENTRY, the block's one way of taking an exception (60_exceptions.md R208, R185): `STATE` to ERROR, `KIND` to the kind,
OLEN and ILEN to 0, IDX and CMD kept; nothing is saved and control goes nowhere. -/
def raiseError (k : ErrorKind) (s : State) : State :=
  discardWork { s with
    mem := { ibuf := [], obuf := [] }
    status := .error
    err := k }

/-- `COMPLETE`'s effect for the result `r` of the operation (R185). -/
def complete (r : Except ErrorKind Handover) (s : State) : State :=
  match r with
  | .ok h => succeed h s
  | .error k => raiseError k s

/-! ### The start of a call (R183), which is also the only way out of ERROR besides RESET (R212) -/

/-- `H_START(w)`'s effect: CMD, the latches, `STATE` to BUSY, `KIND` to NONE, OLEN to 0; IBUF, ILEN and IDX kept (R183). -/
def startCall (w : Word) (s : State) : State :=
  { s with
    mem := { s.mem with obuf := [] }
    cmd := w
    lcmd := opcField w
    lill := illegalWord w
    status := .busy
    err := .noError }

/-! ### Stage composition (00_scope.md R14, 44_pipeline.md R160, R166) -/

/-- A finished stage's output goes to XBUF, its index, if it has one, to PIDX (10_state.md R35). -/
def Handover.latch (h : Handover) : Working := { h.work with xbuf := h.seq, pidx := h.idx.getD h.work.pidx }

/-- `f then g`: an error ends the composition unchanged; a result is latched and the next stage runs on it (R14, R166). -/
def thenStage (r : Except ErrorKind Handover) (stage : Working → Except ErrorKind Handover) : Except ErrorKind Handover :=
  match r with
  | .ok h => stage h.latch
  | .error k => .error k

/-! ### RESET (70_reset_and_hazards.md R230, R231) -/

/-- The RESET step: the host-visible elements and STAGE as R42 says; every other hidden element unspecified, a free value
(R230, log 6). CAPR is the instance's constant; the model's own schedule, replies and counter are no state of the block. -/
def resetStep (s : State) : State :=
  { State.resetWith s.capr with
    lcmd := Config.freeLcmd s.tick
    lill := Config.freeLill s.tick
    work := Working.free s.cap s.tick
    agenda := s.agenda
    replies := s.replies
    tick := s.tick + 1 }

/-- The state in which the core's turn comes next: an empty schedule gives the core the turn already. -/
def coreNext (agenda : List Event) : List Event :=
  match agenda with
  | [] => []
  | e :: es => .core :: e :: es

end Sys2Proof.Machine
end

