-- ==== Sys2Proof/Machine/Operands.lean ====
section
/-! DEFINITION. The implicit operands of the commands (30_encoding.md R85): the block has one operand form for the sequence, one for
the integer, and no operand field in the command word. -/

namespace Sys2Proof.Machine

/-- The sequence operand of every command: `IBUF[0..ILEN)` (R85). -/
def State.inputSeq (s : State) : Bytes := s.mem.ibuf

/-- The integer operand of BWT_INV and SER_WR: IDX (R85). -/
def State.inputIdx (s : State) : Word := s.idx

/-- Column "reads IDX" of R85. -/
def readsIdx : Instr → Bool
  | .bwtInv | .serWr => true
  | .compress | .decompress | .bwtFwd | .mtfEnc | .mtfDec | .rleEnc | .rleDec | .serRd => false

/-- Column "writes IDX on success" of R85. -/
def writesIdx : Instr → Bool
  | .bwtFwd | .serRd => true
  | .compress | .decompress | .bwtInv | .mtfEnc | .mtfDec | .rleEnc | .rleDec | .serWr => false

end Sys2Proof.Machine
end

