-- ==== Sys2Proof/Machine/Bwt.lean ====
section
/-! DEFINITION. Unit `BWT_permutation_sort` (40_bwt.md): the canonical order of rotations, BWT_FWD and BWT_INV. The method, an
insertion sort, is free (R96, R103, log 20). -/

namespace Sys2Proof.Machine

/-! ### Orders -/

/-- `lex_lt` (00_scope.md R11) of two sequences of the same length: unsigned, byte by byte. -/
def lexLt : Bytes → Bytes → Bool
  | a :: as, b :: bs => a.ult b || (a == b && lexLt as bs)
  | _, _ => false

/-- `rot(S, i)`: the rotation that starts at offset `i` and wraps around (R90). -/
def rot (S : Bytes) (i : Nat) : Bytes := (List.range S.length).map fun k => S.getD ((i + k) % S.length) 0

/-- `last(S, i)`: the last byte of `rot(S, i)` (R91). -/
def lastOfRot (S : Bytes) (i : Nat) : Byte := S.getD ((i + S.length - 1) % S.length) 0

/-- `rot_lt(S, i, j)`: lexicographic on the full rotations, ties by ascending start offset (R92). -/
def rotLt (S : Bytes) (i j : Nat) : Bool :=
  lexLt (rot S i) (rot S j) || (rot S i == rot S j && decide (i < j))

/-! ### Sorting -/

/-- Put `x` before the first element that is not below it. -/
def insertSorted {α : Type} (lt : α → α → Bool) (x : α) : List α → List α
  | [] => [x]
  | y :: ys => if lt y x then y :: insertSorted lt x ys else x :: y :: ys

/-- Insertion sort; stable: elements neither of which is below the other keep their order. -/
def sortBy {α : Type} (lt : α → α → Bool) : List α → List α
  | [] => []
  | x :: xs => insertSorted lt x (sortBy lt xs)

/-! ### BWT_FWD -/

/-- `perm(S)`: the offsets `0 .. n-1` in canonical order (R93). -/
def perm (S : Bytes) : List Nat := sortBy (rotLt S) (List.range S.length)

/-- The position of `v` in a list, the list's length if it is absent. -/
def positionOf (v : Nat) : List Nat → Nat
  | [] => 0
  | x :: xs => if x = v then 0 else positionOf v xs + 1

/-- The forward transform (R95): PERM gets the canonical permutation, the output is the last bytes of the rotations in its
order, the index is the row of offset 0 (R94). The empty input fails (D8). -/
def bwtFwdUnit (S : Bytes) (w : Working) : Except ErrorKind Handover :=
  if S.length = 0 then .error .corruptTransform
  else
    let w' : Working := { w with stage := .bwt, perm := perm S }
    .ok { seq := w'.perm.map (lastOfRot S), idx := some (BitVec.ofNat 32 (positionOf 0 w'.perm)), work := w' }

/-! ### BWT_INV -/

/-- `sort_rows(X)`: rows in non-decreasing lexicographic order, identical rows in their old order (R97). -/
def sortRows (X : List Bytes) : List Bytes := sortBy lexLt X

/-- From `T_j` to `T_(j+1)`: `L[k]` before row `k`, for every `k`, then sort (R98). -/
def nextRows (L : Bytes) (T : List Bytes) : List Bytes := sortRows (List.zipWith List.cons L T)

/-- `T_j` of R98: `n` empty rows at the start. -/
def rowTable (L : Bytes) : Nat → List Bytes
  | 0 => List.replicate L.length []
  | j + 1 => nextRows L (rowTable L j)

/-- The inverse transform (R99): the index is checked first, then ROWS gets `T_n` and row `idx` is the output. -/
def bwtInvUnit (L : Bytes) (idx : Word) (w : Working) : Except ErrorKind Handover :=
  if L.length ≤ idx.toNat then .error .corruptTransform
  else
    let w' : Working := { w with stage := .bwt, rows := rowTable L L.length }
    .ok { seq := w'.rows.getD idx.toNat [], idx := none, work := w' }

/-! ### The commands -/

/-- BWT_FWD (R95): input IBUF; results OBUF, OLEN, IDX. -/
def execBwtFwd (s : State) : Host.Outcome State Fault Refusal := .next (complete (bwtFwdUnit s.inputSeq s.work) s)

/-- BWT_INV (R99): inputs IBUF and IDX; results OBUF, OLEN. -/
def execBwtInv (s : State) : Host.Outcome State Fault Refusal :=
  .next (complete (bwtInvUnit s.inputSeq s.inputIdx s.work) s)

end Sys2Proof.Machine
end

