-- ==== Sys2Proof/Machine/Mtf.lean ====
section
/-! DEFINITION. Unit `MTF_rank_encoder` (41_mtf.md): the symbol table, MTF_ENC and MTF_DEC. -/

namespace Sys2Proof.Machine

/-- The identity order `0, 1, ..., 255` every MTF operation starts from (R110). -/
def identityTable : Bytes := (List.range 256).map (BitVec.ofNat 8)

/-- `rank(SYM, b)`: the first position that holds `b`, the only one in a permutation (R111); the table's length if none does,
which no table the operations reach allows (R116, log 23). -/
def rank (sym : Bytes) (b : Byte) : Nat :=
  match sym with
  | [] => 0
  | x :: xs => if x = b then 0 else rank xs b + 1

/-- `move_front(SYM, p)`: the entry at `p` to position 0, those before it back by one, those behind it unmoved (R112). -/
def moveFront (sym : Bytes) (p : Nat) : Bytes := sym.getD p 0 :: sym.eraseIdx p

/-- The loop of `mtf_enc` (R113): the ranks, and SYM at the end. -/
def mtfEncLoop (sym : Bytes) : Bytes → Bytes × Bytes
  | [] => ([], sym)
  | b :: bs =>
    let r := rank sym b
    let rest := mtfEncLoop (moveFront sym r) bs
    (BitVec.ofNat 8 r :: rest.1, rest.2)

/-- The loop of `mtf_dec` (R114): the bytes and SYM at the end. The range check of R115 stands as in the pseudocode; a rank is
one byte, so it never fires (90_conflicts.md C5). -/
def mtfDecLoop (sym : Bytes) : Bytes → Except ErrorKind (Bytes × Bytes)
  | [] => .ok ([], sym)
  | r :: rs =>
    if r.toNat > 255 then .error .corruptTransform
    else
      match mtfDecLoop (moveFront sym r.toNat) rs with
      | .ok rest => .ok (sym.getD r.toNat 0 :: rest.1, rest.2)
      | .error k => .error k

/-- The encoder (R113): SYM fresh (R110), one rank for each byte. -/
def mtfEncUnit (S : Bytes) (w : Working) : Except ErrorKind Handover :=
  let w' : Working := { w with stage := .mtf, sym := identityTable }
  let out := mtfEncLoop w'.sym S
  .ok { seq := out.1, idx := none, work := { w' with sym := out.2 } }

/-- The decoder (R114): SYM fresh (R110), one byte for each rank. -/
def mtfDecUnit (R : Bytes) (w : Working) : Except ErrorKind Handover :=
  let w' : Working := { w with stage := .mtf, sym := identityTable }
  match mtfDecLoop w'.sym R with
  | .ok out => .ok { seq := out.1, idx := none, work := { w' with sym := out.2 } }
  | .error k => .error k

/-- MTF_ENC (R113): input IBUF; results OBUF, OLEN. -/
def execMtfEnc (s : State) : Host.Outcome State Fault Refusal := .next (complete (mtfEncUnit s.inputSeq s.work) s)

/-- MTF_DEC (R114): input IBUF; results OBUF, OLEN. -/
def execMtfDec (s : State) : Host.Outcome State Fault Refusal := .next (complete (mtfDecUnit s.inputSeq s.work) s)

end Sys2Proof.Machine
end

