-- ==== Sys2Proof/Machine/Rle.lean ====
section
/-! DEFINITION. Unit `RLE_run_detector` (42_rle.md): the run detector, RLE_ENC and RLE_DEC. -/

namespace Sys2Proof.Machine

/-- A run pair `(count, value)` (30_encoding.md R76). -/
abbrev RunPair := Byte × Byte

/-- `rdet_step(b)` (R134): the detector after the byte, and the pair it emits, if any. -/
def rdetStep (d : RunDetector) (b : Byte) : RunDetector × List RunPair :=
  if d.held = true ∧ d.val = b ∧ d.cnt.toNat < 255 then ({ d with cnt := d.cnt + 1 }, [])
  else (⟨true, b, 1⟩, if d.held then [(d.cnt, d.val)] else [])

/-- `rdet_flush()` (R134): the open run, if any, is emitted and closed. -/
def rdetFlush (d : RunDetector) : RunDetector × List RunPair :=
  ({ d with held := false }, if d.held then [(d.cnt, d.val)] else [])

/-- The detector over a whole sequence, then the flush (R134): the detector at the end and every pair in order. -/
def rdetScan (d : RunDetector) : Bytes → RunDetector × List RunPair
  | [] => rdetFlush d
  | b :: bs =>
    let first := rdetStep d b
    let rest := rdetScan first.1 bs
    (rest.1, first.2 ++ rest.2)

/-- `ser` of a pair list: count then value, no delimiter, no trailing length (R132, 30_encoding.md R76). -/
def serPairs (ps : List RunPair) : Bytes := ps.flatMap fun p => [p.1, p.2]

/-- The encoder (R135): the detector cleared (R133), run over the input, its pairs serialised; the length tested against CAP
before any output. -/
def rleEncUnit (cap : Nat) (S : Bytes) (w : Working) : Except ErrorKind Handover :=
  let w' : Working := { w with stage := .rle, rdet := { w.rdet with held := false } }
  let scan := rdetScan w'.rdet S
  let out := serPairs scan.2
  if cap < out.length then .error .capacityExceeded
  else .ok { seq := out, idx := none, work := { w' with rdet := scan.1 } }

/-- The pairs of a serialised RunList of even length (30_encoding.md R76); an odd last byte is no pair. -/
def pairsOf : Bytes → List RunPair
  | c :: v :: rest => (c, v) :: pairsOf rest
  | _ => []

/-- The sum of the counts, a natural number that cannot wrap (R139, 00_scope.md R15). -/
def sumCounts (ps : List RunPair) : Nat := (ps.map fun p => p.1.toNat).sum

/-- Each pair `(count, value)` expanded to `count` copies of `value`, in order (R139). -/
def expandPairs (ps : List RunPair) : Bytes := ps.flatMap fun p => List.replicate p.1.toNat p.2

/-- The decoder (R139): parity of the length, then zero counts, then the capacity, then the output. -/
def rleDecUnit (cap : Nat) (B : Bytes) (w : Working) : Except ErrorKind Handover :=
  if B.length % 2 = 1 then .error .corruptTransform
  else if (pairsOf B).any fun p => p.1 == 0 then .error .corruptTransform
  else if cap < sumCounts (pairsOf B) then .error .capacityExceeded
  else .ok { seq := expandPairs (pairsOf B), idx := none, work := { w with stage := .rle } }

/-- RLE_ENC (R135): input IBUF; results OBUF, OLEN. -/
def execRleEnc (s : State) : Host.Outcome State Fault Refusal :=
  .next (complete (rleEncUnit s.cap s.inputSeq s.work) s)

/-- RLE_DEC (R139): input IBUF; results OBUF, OLEN. -/
def execRleDec (s : State) : Host.Outcome State Fault Refusal :=
  .next (complete (rleDecUnit s.cap s.inputSeq s.work) s)

end Sys2Proof.Machine
end

