-- ==== Sys2Proof/Machine/Serializer.lean ====
section
/-! DEFINITION. Unit `compression_serializer` (43_serializer.md): SER_WR and SER_RD. -/

namespace Sys2Proof.Machine

/-- The writer (R151): `be32(idx) ++ B` (R150); only the capacity is checked (R152). -/
def serWrUnit (cap : Nat) (idx : Word) (B : Bytes) (w : Working) : Except ErrorKind Handover :=
  if cap < 4 + B.length then .error .capacityExceeded
  else .ok { seq := be32 idx ++ B, idx := none, work := { w with stage := .ser } }

/-- The reader (R154): the header, then the parity of the rest; the index is not range-checked (R156) and counts are not
looked at. -/
def serRdUnit (X : Bytes) (w : Working) : Except ErrorKind Handover :=
  match X with
  | b0 :: b1 :: b2 :: b3 :: B =>
    if B.length % 2 = 1 then .error .truncatedPayload
    else .ok { seq := B, idx := some (unbe32 b0 b1 b2 b3), work := { w with stage := .ser } }
  | _ => .error .truncatedHeader

/-- SER_WR (R151): inputs IBUF and IDX; results OBUF, OLEN. -/
def execSerWr (s : State) : Host.Outcome State Fault Refusal :=
  .next (complete (serWrUnit s.cap s.inputIdx s.inputSeq s.work) s)

/-- SER_RD (R154): input IBUF; results OBUF, OLEN, IDX. -/
def execSerRd (s : State) : Host.Outcome State Fault Refusal := .next (complete (serRdUnit s.inputSeq s.work) s)

end Sys2Proof.Machine
end

