-- ==== Sys2Proof/Machine/Pipeline.lean ====
section
/-! DEFINITION. Unit `pipeline_control` (44_pipeline.md): the two fixed stage sequences. Each stage takes its sequence from XBUF, where
the stage before left it, and the index travels in PIDX (10_state.md R35); IDX is neither read nor written. -/

namespace Sys2Proof.Machine

/-- COMPRESS's stages, BWT_FWD, MTF_ENC, RLE_ENC, SER_WR (R160, R161). -/
def compressStages (cap : Nat) (S : Bytes) (w : Working) : Except ErrorKind Handover :=
  let bwt := bwtFwdUnit S w
  let mtf := thenStage bwt fun w => mtfEncUnit w.xbuf w
  let rle := thenStage mtf fun w => rleEncUnit cap w.xbuf w
  thenStage rle fun w => serWrUnit cap w.pidx w.xbuf w

/-- DECOMPRESS's stages, SER_RD, RLE_DEC, MTF_DEC, BWT_INV (R160, R164). The container is read once (90_conflicts.md C8). -/
def decompressStages (cap : Nat) (X : Bytes) (w : Working) : Except ErrorKind Handover :=
  let ser := serRdUnit X w
  let rle := thenStage ser fun w => rleDecUnit cap w.xbuf w
  let mtf := thenStage rle fun w => mtfDecUnit w.xbuf w
  thenStage mtf fun w => bwtInvUnit w.xbuf w.pidx w

/-- COMPRESS (R161): input IBUF; results OBUF, OLEN. -/
def execCompress (s : State) : Host.Outcome State Fault Refusal :=
  .next (complete (compressStages s.cap s.inputSeq s.work) s)

/-- DECOMPRESS (R164): input IBUF; results OBUF, OLEN. -/
def execDecompress (s : State) : Host.Outcome State Fault Refusal :=
  .next (complete (decompressStages s.cap s.inputSeq s.work) s)

end Sys2Proof.Machine
end

