-- ==== Sys2Proof/Machine/Dispatch.lean ====
section
/-! DEFINITION. The effect of `COMPLETE` for each command (45_host_interface.md R184, R185). It does not look at `STATE`: the core's
turn takes it only while BUSY (log 12). -/

namespace Sys2Proof.Machine

def exec (i : Instr) (s : State) : Host.Outcome State Fault Refusal :=
  match i with
  -- unit pipeline_control
  | .compress => Sys2Proof.Machine.execCompress s
  | .decompress => Sys2Proof.Machine.execDecompress s
  -- unit BWT_permutation_sort
  | .bwtFwd => Sys2Proof.Machine.execBwtFwd s
  | .bwtInv => Sys2Proof.Machine.execBwtInv s
  -- unit MTF_rank_encoder
  | .mtfEnc => Sys2Proof.Machine.execMtfEnc s
  | .mtfDec => Sys2Proof.Machine.execMtfDec s
  -- unit RLE_run_detector
  | .rleEnc => Sys2Proof.Machine.execRleEnc s
  | .rleDec => Sys2Proof.Machine.execRleDec s
  -- unit compression_serializer
  | .serWr => Sys2Proof.Machine.execSerWr s
  | .serRd => Sys2Proof.Machine.execSerRd s

end Sys2Proof.Machine
end

