-- ==== Sys2Proof/Machine/Flags.lean ====
section
/-! DEFINITION. The status flags and the registers as the host reads them: the codes of `STATE` and `KIND` (30_encoding.md R80, R81)
and the register file by number (10_state.md R30). The block has no other flag (R40). -/

namespace Sys2Proof.Machine

/-- Codes of `STATUS.STATE` (R81). -/
def stateCode : CallState → BitVec 2
  | .idle => 0
  | .busy => 1
  | .done => 2
  | .error => 3

/-- Codes of `ERR.KIND` (R80). -/
def kindCode : ErrorKind → BitVec 3
  | .noError => 0
  | .truncatedHeader => 1
  | .truncatedPayload => 2
  | .corruptTransform => 3
  | .encodingOverflow => 4
  | .illegalCommand => 5
  | .capacityExceeded => 6

/-- STATUS: `STATE` in bits 1:0, bits 31:2 read 0 (R27). -/
def State.statusWord (s : State) : Word := (stateCode s.status).setWidth 32

/-- ERR: `KIND` in bits 2:0, bits 31:3 read 0 (R28). -/
def State.errWord (s : State) : Word := (kindCode s.err).setWidth 32

/-- ILEN (R22): the length of IBUF. -/
def State.ilen (s : State) : Word := BitVec.ofNat 32 s.mem.ibuf.length

/-- OLEN (R24): the length of OBUF. -/
def State.olen (s : State) : Word := BitVec.ofNat 32 s.mem.obuf.length

/-- The register a number names, as a read returns it; none for numbers above 6 (R30). -/
def State.register (s : State) (reg : Nat) : Option Word :=
  match reg with
  | 0 => some s.cmd
  | 1 => some s.statusWord
  | 2 => some s.errWord
  | 3 => some s.idx
  | 4 => some s.ilen
  | 5 => some s.olen
  | 6 => some s.capr
  | _ => none

/-- The registers that can be read while BUSY: CMD, STATUS, ERR, CAPR (R31, R188). -/
def readableWhileBusy (reg : Nat) : Bool := reg == 0 || reg == 1 || reg == 2 || reg == 6

end Sys2Proof.Machine
end

