-- ==== Sys2Proof/Machine/Transactions.lean ====
section
/-! DEFINITION. The host's transactions (45_host_interface.md R181 to R183, R187, R188) and the accesses R190 refuses. A value
returned to the host is added to `replies` (log 2). -/

namespace Sys2Proof.Machine

/-- Return a value to the host; no read has any other effect (20_memory.md R56). -/
def answer (r : Reply) (s : State) : State := { s with replies := r :: s.replies }

/-- `H_LOAD(seq)` (R181). -/
def hostLoad (seq : Bytes) (s : State) : Host.Outcome State Fault Refusal :=
  if s.status = .busy then .refused .blockBusy
  else if s.cap < seq.length then .refused .loadTooLong
  else .next { s with mem := { s.mem with ibuf := seq } }

/-- `H_SETIDX(v)` (R182). -/
def hostSetIdx (v : Word) (s : State) : Host.Outcome State Fault Refusal :=
  if s.status = .busy then .refused .blockBusy else .next { s with idx := v }

/-- `H_START(w)` (R183): refused while BUSY only; an illegal word starts a call like any other (R72). -/
def hostStart (w : Word) (s : State) : Host.Outcome State Fault Refusal :=
  if s.status = .busy then .refused .blockBusy else .next (startCall w s)

/-- `H_READ_OUT` (R187): the sequence `OBUF[0..OLEN)`. -/
def hostReadOut (s : State) : Host.Outcome State Fault Refusal :=
  if s.status = .busy then .refused .blockBusy else .next (answer (.sequence s.mem.obuf) s)

/-- `H_READ_REG(reg)` (R188). -/
def hostReadReg (reg : Nat) (s : State) : Host.Outcome State Fault Refusal :=
  match s.register reg with
  | none => .refused (.noSuchRegister reg)
  | some v =>
    if s.status = .busy ∧ readableWhileBusy reg = false then .refused .blockBusy
    else .next (answer (.register v) s)

/-- A write to a register by number (R30, R190): CMD starts a call, IDX is set, every other write is refused. -/
def hostWriteReg (reg : Nat) (v : Word) (s : State) : Host.Outcome State Fault Refusal :=
  match reg with
  | 0 => hostStart v s
  | 3 => hostSetIdx v s
  | 1 | 2 | 4 | 5 | 6 => .refused (.registerNotWritable reg)
  | _ => .refused (.noSuchRegister reg)

/-- A single-byte read of the OBUF space (R187), refused at or beyond OLEN (R190). -/
def hostReadObuf (off : Nat) (s : State) : Host.Outcome State Fault Refusal :=
  if s.status = .busy then .refused .blockBusy
  else
    match s.mem.byte .obuf off with
    | some b => .next (answer (.byte b) s)
    | none => .refused (.noByteInObuf off)

/-- One transaction of the host. -/
def hostStep (t : Transaction) (s : State) : Host.Outcome State Fault Refusal :=
  match t with
  | .load seq => hostLoad seq s
  | .setIdx v => hostSetIdx v s
  | .start w => hostStart w s
  | .readOut => hostReadOut s
  | .readReg reg => hostReadReg reg s
  | .writeReg reg v => hostWriteReg reg v s
  | .readObuf off => hostReadObuf off s
  | .readIbuf off => .refused (.ibufNotReadable off)

/-- XFER (30_encoding.md R84): allowed only when `STATE = DONE`; it is `READ`, and the `LOAD` of the sequence read becomes the
host's next turn. -/
def hostXfer (s : State) : Host.Outcome State Fault Refusal :=
  if s.status = .done then
    .next (answer (.sequence s.mem.obuf) { s with agenda := .host (.load s.mem.obuf) :: s.agenda })
  else .refused .xferNotDone

end Sys2Proof.Machine
end

