-- ==== Sys2Proof/Machine/Turn.lean ====
section
/-! DEFINITION. Whose turn it is and what it does (45_host_interface.md R180): the schedule `agenda` says who moves next, and an empty
schedule leaves the turn to the core (log 1, log 16). -/

namespace Sys2Proof.Machine

/-- The core's turn. While BUSY it takes `COMPLETE` for the latched command (R184, R185); LILL = 1 completes with
`IllegalCommand`, no operand looked at (R205). At every other time it does nothing (R60, log 7). -/
def coreTurn (s : State) : Host.Outcome State Fault Refusal :=
  if s.status = .busy then
    if s.lill then .next (raiseError .illegalCommand s)
    else
      match decodeLatch s.lcmd with
      | some i => exec i s
      | none => .fault .unassignedLatch
  else .next s

/-- One event of the schedule. -/
def eventStep (e : Event) (s : State) : Host.Outcome State Fault Refusal :=
  match e with
  | .host t => hostStep t s
  | .core => coreTurn s
  | .reset => .next (resetStep s)
  | .xfer => hostXfer s

/-- The next turn: the first event of the schedule, taken off it; the core's turn if there is none. -/
def takeTurn (s : State) : Host.Outcome State Fault Refusal :=
  match s.agenda with
  | [] => coreTurn s
  | e :: rest => eventStep e { s with agenda := rest }

/-- The command word `w` started as `H_START` does, and the core's turn next (log 14). -/
def placeCommand (w : Word) (s : State) : State := { startCall w s with agenda := coreNext s.agenda }

end Sys2Proof.Machine
end

