-- ==== Sys2Proof/Machine/Script.lean ====
section
/-! DEFINITION. The script notation of 30_encoding.md R82 and R84 as events of a schedule. The number of polls of a `WAIT` that still see
BUSY is a parameter: the spec leaves it open (70_reset_and_hazards.md R246, log 13). -/

namespace Sys2Proof.Machine

/-- `WAIT` (R82): reads of STATUS (register 1) until one finds `STATE != BUSY`; the core completes before the last of them. -/
def waitEvents (polls : Nat) : List Event :=
  List.replicate polls (.host (.readReg 1)) ++ [.core, .host (.readReg 1)]

/-- `CALL MNEMONIC [seq]` (R84). -/
def callEvents (polls : Nat) (i : Instr) (seq : Bytes) : List Event :=
  [.host (.load seq), .host (.start (encode i))] ++ waitEvents polls ++ [.host .readOut]

/-- The byte of a character of `LOAD "text"`: its ASCII code (R82). DESIGN CHOICE (log 22): a character above code point 127 has no
ASCII code, and its byte is a free value. -/
def charByte (c : Char) : Byte := if c.toNat < 128 then BitVec.ofNat 8 c.toNat else Config.freeCharByte c

/-- A script line's events (R82, R84). -/
def lineEvents (polls : Nat) : ScriptLine → List Event
  | .load seq => [.host (.load seq)]
  | .loadText text => [.host (.load (text.map charByte))]
  | .setIdx v => [.host (.setIdx v)]
  | .start i => [.host (.start (encode i))]
  | .startWord w => [.host (.start w)]
  | .wait => waitEvents polls
  | .read => [.host .readOut]
  | .rd reg => [.host (.readReg reg)]
  | .xfer => [.xfer]
  | .call i seq => callEvents polls i seq
  | .roundtrip seq =>
    callEvents polls .compress seq ++ [.xfer, .host (.start (encode .decompress))] ++ waitEvents polls ++ [.host .readOut]

/-- A script's events, line after line. -/
def scriptEvents (polls : Nat) (script : List ScriptLine) : List Event := script.flatMap (lineEvents polls)

end Sys2Proof.Machine
end

