-- ==== Sys2Proof/Safety.lean ====
section
/-! DEFINITION. The terms claims are stated in: the invariant of the machine's states, what the two endings of a call leave, and the
transforms of files 40 to 44 as relations written from the rules, without the machine's own functions. -/

namespace Sys2Proof.Machine

/-! ### The invariant -/

/-- What holds of every state a run from reset reaches: the capacity's bounds (R7), lengths within it (R21, R23, R35), the
256 entries of SYM (R32), STAGE at rest between steps (R37), `KIND != NONE` iff `STATE = ERROR` (R28), code 4 never
(R204), output only after success (R23, R24), the latches of a running call (R36), and CMD untouched while IDLE (R26, R27). -/
structure State.Inv (s : State) : Prop where
  cap_min : 6 ≤ s.cap
  ibuf_fits : s.mem.ibuf.length ≤ s.cap
  obuf_fits : s.mem.obuf.length ≤ s.cap
  xbuf_fits : s.work.xbuf.length ≤ s.cap
  sym_size : s.work.sym.length = 256
  stage_rest : s.work.stage = .none
  kind_iff_error : s.err ≠ .noError ↔ s.status = .error
  no_encoding_overflow : s.err ≠ .encodingOverflow
  output_only_done : s.status ≠ .done → s.mem.obuf = []
  latched : s.status = .busy → s.lcmd = opcField s.cmd ∧ s.lill = illegalWord s.cmd
  idle_cmd : s.status = .idle → s.cmd = 0

/-! ### What a call leaves (R185, R186, R208) -/

/-- What no ending of a call writes: CMD and CAPR, and the model's own schedule and replies (log 1, log 2). -/
structure CallFrame (s t : State) : Prop where
  cmd : t.cmd = s.cmd
  capr : t.capr = s.capr
  agenda : t.agenda = s.agenda
  replies : t.replies = s.replies

/-- `t` is `s` after a call that succeeded with the output `out` and left `idx` in IDX (R185, R186). -/
structure CallSucceeds (s t : State) (out : Bytes) (idx : Word) : Prop extends CallFrame s t where
  status : t.status = .done
  err : t.err = .noError
  obuf : t.mem.obuf = out
  ibuf : t.mem.ibuf = []
  idx : t.idx = idx
  stage : t.work.stage = .none

/-- `t` is `s` after a call that failed with the kind `k` (R185, R186, R208). -/
structure CallFails (s t : State) (k : ErrorKind) : Prop extends CallFrame s t where
  status : t.status = .error
  err : t.err = k
  obuf : t.mem.obuf = []
  ibuf : t.mem.ibuf = []
  idx : t.idx = s.idx
  stage : t.work.stage = .none

/-- Two states that agree on everything the host can read of a finished call (R41). -/
structure SameResult (t u : State) : Prop where
  mem : t.mem = u.mem
  idx : t.idx = u.idx
  status : t.status = u.status
  err : t.err = u.err

/-! ### The Burrows-Wheeler transform as relations (40_bwt.md) -/

/-- `lex_lt(a, b)` for sequences of one length (00_scope.md R11): the first place where they differ has the smaller byte. -/
def LexBelow (a b : Bytes) : Prop :=
  ∃ j, j < a.length ∧ (∀ i, i < j → a.getD i 0 = b.getD i 0) ∧ (a.getD j 0).toNat < (b.getD j 0).toNat

/-- The rotation that starts at offset `i`, `i < |S|`: what follows `i`, then what precedes it (R90). -/
def rotation (S : Bytes) (i : Nat) : Bytes := S.drop i ++ S.take i

/-- `rot_lt(S, i, j)` (R92). -/
def RotBelow (S : Bytes) (i j : Nat) : Prop :=
  LexBelow (rotation S i) (rotation S j) ∨ (rotation S i = rotation S j ∧ i < j)

/-- `P` is the canonical permutation of `S` (R93): each offset once, every two neighbours in order. -/
structure CanonicalPerm (S : Bytes) (P : List Nat) : Prop where
  offsets : P.Perm (List.range S.length)
  ordered : ∀ k, k + 1 < P.length → RotBelow S (P.getD k 0) (P.getD (k + 1) 0)

/-- `bwt_fwd(S) = Ok(L, k)` (R95, R94): the last bytes of the rotations in canonical order, and the row of offset 0. -/
def IsBwt (S L : Bytes) (k : Nat) : Prop :=
  ∃ P, CanonicalPerm S P ∧ L = P.map (fun i => (rotation S i).getLastD 0) ∧ k < P.length ∧ P.getD k 0 = 0

/-- `X` arranged so that no row is below the row before it, whatever happens to identical rows (R97). -/
structure IsSortOf (X Y : List Bytes) : Prop where
  rows : Y.Perm X
  ordered : ∀ k, k + 1 < Y.length → ¬ LexBelow (Y.getD (k + 1) []) (Y.getD k [])

/-- `T` is a table `T_j` of R98 built from `L`, with any arrangement of identical rows at every sort. -/
def IsRowTable (L : Bytes) : Nat → List Bytes → Prop
  | 0, T => T = List.replicate L.length []
  | j + 1, T => ∃ T', IsRowTable L j T' ∧ IsSortOf (List.zipWith List.cons L T') T

/-! ### Move to front as a relation (41_mtf.md) -/

/-- SYM after the bytes `seen`, from the identity order: each byte taken out and put at the front (R110, R112). -/
def tableAfter (seen : Bytes) : Bytes :=
  seen.foldl (fun T b => b :: T.erase b) ((List.range 256).map (BitVec.ofNat 8))

/-- `mtf_enc(S) = Ok(R)` (R113): one rank for each byte, each the place of its byte in the table of the bytes before it. -/
structure IsMtf (S R : Bytes) : Prop where
  length : R.length = S.length
  place : ∀ i, i < S.length → (tableAfter (S.take i))[(R.getD i 0).toNat]? = some (S.getD i 0)

/-! ### Run lengths (42_rle.md) -/

/-- `rs` is the decomposition of `S` into maximal runs `(length, value)` (R130). -/
structure MaximalRuns (S : Bytes) (rs : List (Nat × Byte)) : Prop where
  whole : S = rs.flatMap fun r => List.replicate r.1 r.2
  nonempty : ∀ r, r ∈ rs → 1 ≤ r.1
  maximal : ∀ k, k + 1 < rs.length → (rs.getD k (0, 0)).2 ≠ (rs.getD (k + 1) (0, 0)).2

/-- A maximal run's pairs, serialised: full pairs of 255 first, the remainder last, none if it is 0 (R131, R132). -/
def splitRun (l : Nat) (v : Byte) : Bytes :=
  (List.replicate (l / 255) [(255 : Byte), v]).flatten ++ (if l % 255 = 0 then [] else [BitVec.ofNat 8 (l % 255), v])

/-- `ser(runs(S)) = B` (R132). -/
def IsRle (S B : Bytes) : Prop := ∃ rs, MaximalRuns S rs ∧ B = rs.flatMap fun r => splitRun r.1 r.2

/-- `count_k` of a serialised RunList, byte `2k` (30_encoding.md R76). -/
def countAt (B : Bytes) (k : Nat) : Byte := B.getD (2 * k) 0

/-- `value_k` of a serialised RunList, byte `2k + 1` (30_encoding.md R76). -/
def valueAt (B : Bytes) (k : Nat) : Byte := B.getD (2 * k + 1) 0

/-- Some pair's count is 0 (R139). -/
def HasZeroCount (B : Bytes) : Prop := ∃ k, k < B.length / 2 ∧ countAt B k = 0

/-- The sum of the counts (R139). -/
def countTotal (B : Bytes) : Nat := ((List.range (B.length / 2)).map fun k => (countAt B k).toNat).sum

/-- The expansion of a serialised RunList (R139). -/
def expansion (B : Bytes) : Bytes :=
  (List.range (B.length / 2)).flatMap fun k => List.replicate (countAt B k).toNat (valueAt B k)

/-- Even length and every count 1 to 255 (30_encoding.md R76). -/
def LegalRunList (B : Bytes) : Prop := B.length % 2 = 0 ∧ ¬ HasZeroCount B

/-! ### The container (43_serializer.md) -/

/-- `be32(v)` by division (00_scope.md R12). -/
def headerBytes (v : Word) : Bytes :=
  [BitVec.ofNat 8 (v.toNat / 2 ^ 24), BitVec.ofNat 8 (v.toNat / 2 ^ 16), BitVec.ofNat 8 (v.toNat / 2 ^ 8), BitVec.ofNat 8 v.toNat]

/-- `unbe32` of the first four bytes by multiplication (00_scope.md R12, 30_encoding.md R75). -/
def headerIndex (X : Bytes) : Nat :=
  (X.getD 0 0).toNat * 2 ^ 24 + (X.getD 1 0).toNat * 2 ^ 16 + (X.getD 2 0).toNat * 2 ^ 8 + (X.getD 3 0).toNat

/-! ### Tables of the spec -/

/-- The rows of 60_exceptions.md R220: the kinds a command can report besides NONE. -/
def possibleKinds : Instr → List ErrorKind
  | .compress => [.corruptTransform, .capacityExceeded]
  | .decompress => [.truncatedHeader, .truncatedPayload, .corruptTransform, .capacityExceeded]
  | .bwtFwd => [.corruptTransform]
  | .bwtInv => [.corruptTransform]
  | .mtfEnc => []
  | .mtfDec => []
  | .rleEnc => [.capacityExceeded]
  | .rleDec => [.corruptTransform, .capacityExceeded]
  | .serWr => [.capacityExceeded]
  | .serRd => [.truncatedHeader, .truncatedPayload]

/-- The script of 44_pipeline.md R162, COMPRESS in one command. -/
def compressScript (S : Bytes) : List ScriptLine := [.load S, .start .compress, .wait, .read]

/-- The script of 44_pipeline.md R162, COMPRESS as four commands. -/
def stageScript (S : Bytes) : List ScriptLine :=
  [.load S, .start .bwtFwd, .wait, .xfer, .start .mtfEnc, .wait, .xfer, .start .rleEnc, .wait, .xfer, .start .serWr, .wait, .read]

end Sys2Proof.Machine
end

