-- ==== Sys2Proof/Certificates/Slice0/Obligations.lean ====
section
/-! DEFINITION. The statements about the model, for the provers. Each docstring names the rule of spec/ it comes from. -/

open Sys2Proof Sys2Proof.Machine

/-! ### The command word (30_encoding.md R70 to R72) -/

/-- R71: the ten words of the table and the commands they are. -/
def Obligations.TableWordsDecode : Prop :=
  decode 0x00000000#32 = .ok .compress ∧ decode 0x00000001#32 = .ok .decompress ∧
  decode 0x00000002#32 = .ok .bwtFwd ∧ decode 0x00000003#32 = .ok .bwtInv ∧
  decode 0x00000004#32 = .ok .mtfEnc ∧ decode 0x00000005#32 = .ok .mtfDec ∧
  decode 0x00000006#32 = .ok .rleEnc ∧ decode 0x00000007#32 = .ok .rleDec ∧
  decode 0x00000008#32 = .ok .serWr ∧ decode 0x00000009#32 = .ok .serRd

/-- R71, "A decoder matches the full word": each command's word has the table's value, and a word is a command exactly if it is
that command's word. -/
def Obligations.DecodeMatchesFullWord : Prop :=
  (encode .compress = 0x00000000#32 ∧ encode .decompress = 0x00000001#32 ∧ encode .bwtFwd = 0x00000002#32 ∧
    encode .bwtInv = 0x00000003#32 ∧ encode .mtfEnc = 0x00000004#32 ∧ encode .mtfDec = 0x00000005#32 ∧
    encode .rleEnc = 0x00000006#32 ∧ encode .rleDec = 0x00000007#32 ∧ encode .serWr = 0x00000008#32 ∧
    encode .serRd = 0x00000009#32) ∧
  ∀ (w : Word) (i : Instr), decode w = .ok i ↔ w = encode i

/-- R72: which words are illegal, by value and by field. -/
def Obligations.IllegalWordsAreTheOthers : Prop :=
  ∀ w : Word, (illegalWord w = true ↔ 10 ≤ w.toNat) ∧
    (illegalWord w = true ↔ zeroField w ≠ 0#28 ∨ 5 ≤ (unitField w).toNat)

/-- R70: OPC is UNIT*2 + DIR, and each command's word has ZERO = 0, its unit's number and its direction's bit. -/
def Obligations.FormatCFields : Prop :=
  (∀ w : Word, (opcField w).toNat = (unitField w).toNat * 2 + (dirField w).toNat) ∧
  ∀ i : Instr, zeroField (encode i) = 0#28 ∧ decodeUnit (unitField (encode i)) = some i.unit ∧
    decodeDir (dirField (encode i)) = i.direction

/-! ### The host's transactions and RESET (45_host_interface.md, 70_reset_and_hazards.md) -/

/-- R180: a step is the next turn of the schedule, the turn taken off, and the core's turn if the schedule is empty. The schedule is
the model's own field (log 1, log 16). -/
def Obligations.StepTakesTheNextTurn : Prop :=
  ∀ s : State,
    (s.agenda = [] → step s = coreTurn s) ∧
    ∀ rest, (s.agenda = .core :: rest → step s = coreTurn { s with agenda := rest }) ∧
      (∀ t, s.agenda = .host t :: rest → step s = hostStep t { s with agenda := rest }) ∧
      (s.agenda = .xfer :: rest → s.status = .done →
        ∃ u, step s = .next u ∧ u.agenda = .host (.load s.mem.obuf) :: rest ∧ u.mem = s.mem)

/-- R181: H_LOAD is refused while BUSY or over CAP; otherwise it sets IBUF and ILEN and nothing else. -/
def Obligations.LoadSetsInput : Prop :=
  ∀ (s : State) (seq : Bytes),
    (s.status = .busy ∨ s.cap < seq.length → ∃ r, hostStep (.load seq) s = .refused r) ∧
    (s.status ≠ .busy → seq.length ≤ s.cap →
      ∃ t, hostStep (.load seq) s = .next t ∧ t = { s with mem := { ibuf := seq, obuf := s.mem.obuf } } ∧
        t.ilen.toNat = seq.length ∧ t.olen = s.olen)

/-- R181, R54: an accepted H_LOAD is the sequence of its single-byte MemWrites at offsets 0, 1, ... of IBUF, whatever IBUF held, and
then `ILEN <- |seq|`: every MemRead of either space then gives what it gives of the loaded memory. The buffers as sequences and as
slots, a slot without a value, and the length that MemWrite leaves alone are the model's reading (log 11, log 25). -/
def Obligations.LoadIsByteWrites : Prop :=
  ∀ (s : State) (seq : Bytes), s.status ≠ .busy → seq.length ≤ s.cap →
    ∃ t σ, hostStep (.load seq) s = .next t ∧
      (List.range seq.length).foldlM (fun σ i => Spaces.write σ .ibuf i [seq.getD i 0]) (s.mem.spaces s.cap) = some σ ∧
      (∀ addr n, (σ.setLen .ibuf seq.length).read .ibuf addr n = t.mem.read .ibuf addr n) ∧
      (∀ addr n, (σ.setLen .ibuf seq.length).read .obuf addr n = t.mem.read .obuf addr n)

/-- R54: MemWrite is performed exactly where `addr + n <= CAP`; MemRead then returns the written bytes once the length covers them,
and MemWrite changes no other byte, no length and nothing of the other space (the last two and the slots: log 25). -/
def Obligations.WriteThenReadBuffer : Prop :=
  ∀ (cap : Nat) (σ : Spaces) (sp : Space) (addr : Nat) (v : Bytes), σ.wf cap = true →
    ((∃ σ', σ.write sp addr v = some σ') ↔ addr + v.length ≤ cap) ∧
    ∀ σ', σ.write sp addr v = some σ' →
      (∀ len, addr + v.length ≤ len → (σ'.setLen sp len).read sp addr v.length = some v) ∧
      (addr + v.length ≤ (σ.get sp).len → σ'.read sp addr v.length = some v) ∧
      (∀ off, off < addr ∨ addr + v.length ≤ off → (σ'.get sp).slots[off]? = (σ.get sp).slots[off]?) ∧
      (σ'.get sp).len = (σ.get sp).len ∧
      (∀ other, other ≠ sp → σ'.get other = σ.get other)

/-- R182: H_SETIDX is refused while BUSY; otherwise it sets IDX to any 32-bit value and nothing else. -/
def Obligations.SetIdxSetsIndex : Prop :=
  ∀ (s : State) (v : Word),
    (s.status = .busy → ∃ r, hostStep (.setIdx v) s = .refused r) ∧
    (s.status ≠ .busy → hostStep (.setIdx v) s = .next { s with idx := v })

/-- R183: H_START is refused while BUSY; otherwise CMD, LCMD, LILL, STATE, KIND and OLEN are written, and IBUF, ILEN, IDX and
the rest kept. -/
def Obligations.StartLatchesCommand : Prop :=
  ∀ (s : State) (w : Word),
    (s.status = .busy → ∃ r, hostStep (.start w) s = .refused r) ∧
    (s.status ≠ .busy → ∃ t, hostStep (.start w) s = .next t ∧ t.cmd = w ∧ t.lcmd.toNat = w.toNat % 16 ∧
      (t.lill = true ↔ ¬ ∃ i, w = encode i) ∧ t.status = .busy ∧ t.err = .noError ∧ t.olen = 0 ∧ t.mem.obuf = [] ∧
      t.mem.ibuf = s.mem.ibuf ∧ t.ilen = s.ilen ∧ t.idx = s.idx ∧ t.capr = s.capr ∧ t.work = s.work ∧
      t.agenda = s.agenda ∧ t.replies = s.replies)

/-- R40, R183, D5: a START does not see how the last call ended. -/
def Obligations.StartForgetsLastOutcome : Prop :=
  ∀ (s : State) (w : Word) (st : CallState) (k : ErrorKind), s.status ≠ .busy → st ≠ .busy →
    ∃ t, hostStep (.start w) s = .next t ∧ hostStep (.start w) { s with status := st, err := k } = .next t

/-- R187: H_READ_OUT and the single-byte reads return OBUF[0..OLEN) and change nothing. What is returned is held in the model's own
field `replies` (log 2). -/
def Obligations.ReadOutReturnsOutput : Prop :=
  ∀ s : State, s.status ≠ .busy →
    hostStep .readOut s = .next { s with replies := .sequence s.mem.obuf :: s.replies } ∧
    (∀ off b, s.mem.obuf[off]? = some b → hostStep (.readObuf off) s = .next { s with replies := .byte b :: s.replies }) ∧
    Memory.read s.mem .obuf 0 s.mem.obuf.length = some s.mem.obuf

/-- R188, R30: which register each number names, and when its read is accepted. What is returned is held in the model's own field
`replies`, and a refusal has a name (log 2, log 8). -/
def Obligations.ReadRegReturnsRegister : Prop :=
  ∀ (s : State) (reg : Nat) (v : Word),
    (reg = 0 ∧ v = s.cmd ∨ reg = 1 ∧ v = s.statusWord ∨ reg = 2 ∧ v = s.errWord ∨ reg = 3 ∧ v = s.idx ∨
      reg = 4 ∧ v = s.ilen ∨ reg = 5 ∧ v = s.olen ∨ reg = 6 ∧ v = s.capr) →
    (reg = 0 ∨ reg = 1 ∨ reg = 2 ∨ reg = 6 ∨ s.status ≠ .busy →
      hostStep (.readReg reg) s = .next { s with replies := .register v :: s.replies }) ∧
    (s.status = .busy → reg = 3 ∨ reg = 4 ∨ reg = 5 → hostStep (.readReg reg) s = .refused .blockBusy)

/-- R27, R28, R80, R81: what STATUS and ERR read as; the bits above the field are 0. -/
def Obligations.StatusAndErrRegisters : Prop :=
  ∀ s : State,
    (s.status = .idle → s.statusWord = 0) ∧ (s.status = .busy → s.statusWord = 1) ∧
    (s.status = .done → s.statusWord = 2) ∧ (s.status = .error → s.statusWord = 3) ∧
    (s.err = .noError → s.errWord = 0) ∧ (s.err = .truncatedHeader → s.errWord = 1) ∧
    (s.err = .truncatedPayload → s.errWord = 2) ∧ (s.err = .corruptTransform → s.errWord = 3) ∧
    (s.err = .encodingOverflow → s.errWord = 4) ∧ (s.err = .illegalCommand → s.errWord = 5) ∧
    (s.err = .capacityExceeded → s.errWord = 6)

/-- R190: every access of its list is refused; the refusals' names are the model's (log 8). -/
def Obligations.RefusedTransactions : Prop :=
  ∀ s : State,
    (s.status = .busy →
      (∀ seq, hostStep (.load seq) s = .refused .blockBusy) ∧ (∀ v, hostStep (.setIdx v) s = .refused .blockBusy) ∧
      (∀ w, hostStep (.start w) s = .refused .blockBusy) ∧ hostStep .readOut s = .refused .blockBusy ∧
      hostStep (.readReg 3) s = .refused .blockBusy ∧ hostStep (.readReg 4) s = .refused .blockBusy ∧
      hostStep (.readReg 5) s = .refused .blockBusy) ∧
    (∀ seq, s.cap < seq.length → ∃ r, hostStep (.load seq) s = .refused r) ∧
    (∀ reg v, reg = 1 ∨ reg = 2 ∨ reg = 4 ∨ reg = 5 ∨ reg = 6 →
      hostStep (.writeReg reg v) s = .refused (.registerNotWritable reg)) ∧
    (∀ reg v, 6 < reg → hostStep (.writeReg reg v) s = .refused (.noSuchRegister reg) ∧
      hostStep (.readReg reg) s = .refused (.noSuchRegister reg)) ∧
    (∀ off, s.mem.obuf.length ≤ off → ∃ r, hostStep (.readObuf off) s = .refused r) ∧
    (∀ off, hostStep (.readIbuf off) s = .refused (.ibufNotReadable off))

/-- R190 as WellFormed states its static part: an ill-formed transaction is refused in every state whose output fits CAP. -/
def Obligations.IllFormedTransactionsRefused : Prop :=
  ∀ (s : State) (t : Transaction), s.mem.obuf.length ≤ s.cap → t.wf s.cap = false → ∃ r, hostStep t s = .refused r

/-- R31, R60, R63: while BUSY the host's only accepted transactions are reads of CMD, STATUS, ERR and CAPR, and they change nothing
but the model's own record of the values returned (log 2). -/
def Obligations.RunningCallIsUndisturbed : Prop :=
  ∀ (s u : State) (t : Transaction), s.status = .busy → hostStep t s = .next u →
    u = { s with replies := u.replies } ∧ ∃ reg, t = .readReg reg ∧ (reg = 0 ∨ reg = 1 ∨ reg = 2 ∨ reg = 6)

/-- R56: no read has a side effect; what is returned is held in the model's own field `replies` (log 2). -/
def Obligations.ReadsHaveNoSideEffect : Prop :=
  ∀ (s u : State) (t : Transaction),
    (t = .readOut ∨ (∃ reg, t = .readReg reg) ∨ (∃ off, t = .readObuf off) ∨ ∃ off, t = .readIbuf off) →
    hostStep t s = .next u → ∃ r, u = { s with replies := r :: s.replies }

/-- R230, R231: RESET in any state, also during a call; then the core does nothing. -/
def Obligations.ResetMakesIdle : Prop :=
  ∀ (s : State) (rest : List Event), s.agenda = .reset :: rest →
    ∃ t, step s = .next t ∧ t.cmd = 0 ∧ t.status = .idle ∧ t.err = .noError ∧ t.idx = 0 ∧ t.mem = ⟨[], []⟩ ∧
      t.ilen = 0 ∧ t.olen = 0 ∧ t.capr = s.capr ∧ t.work.stage = .none ∧ t.agenda = rest ∧ t.replies = s.replies ∧
      step { t with agenda := [] } = .next { t with agenda := [] }

/-- R42: the reset values the spec gives; CAP is some value within R7's bounds. -/
def Obligations.ResetValues : Prop :=
  State.reset.cmd = 0 ∧ State.reset.status = .idle ∧ State.reset.err = .noError ∧ State.reset.idx = 0 ∧
  State.reset.mem = ⟨[], []⟩ ∧ State.reset.ilen = 0 ∧ State.reset.olen = 0 ∧ State.reset.capr = Config.cap ∧
  State.reset.work.stage = .none ∧ 6 ≤ State.reset.cap ∧ State.reset.cap ≤ 2 ^ 32 - 1

/-! ### A call (45_host_interface.md R184, R185) -/

/-- R184: a step runs the latched command: when the core has the turn, `STATE = BUSY` and the latches hold the command `i`, the step is
`exec i`, the turn taken off the schedule (the schedule is the model's own field, log 1). -/
def Obligations.StepRunsLatchedCommand : Prop :=
  ∀ (s : State) (i : Instr), s.status = .busy → s.lill = false → decodeLatch s.lcmd = some i →
    (s.agenda = [] → step s = exec i s) ∧
    (∀ rest, s.agenda = .core :: rest → step s = exec i { s with agenda := rest })

/-- R180, R183 to R185: H_START of a command's word and the core's next turn are the command's execution on the operands that
stood at START. -/
def Obligations.StartThenCoreRunsCommand : Prop :=
  ∀ (s : State) (w : Word) (i : Instr) (rest : List Event), s.status ≠ .busy → decode w = .ok i →
    s.agenda = .host (.start w) :: .core :: rest →
    ∃ t, step s = .next t ∧ t.mem.ibuf = s.mem.ibuf ∧ t.idx = s.idx ∧ t.capr = s.capr ∧ t.cmd = w ∧
      step t = exec i { t with agenda := rest }

/-- R72, R205: an illegal word is not refused; it is latched in LILL, and the completion is IllegalCommand, whatever the operands:
the input consumed, IDX kept, the word still in CMD. -/
def Obligations.IllegalWordFailsTheCall : Prop :=
  ∀ (s : State) (w : Word), s.status ≠ .busy → (∀ i, w ≠ encode i) →
    ∃ t u, hostStep (.start w) s = .next t ∧ t.status = .busy ∧ t.lill = true ∧ coreTurn t = .next u ∧
      u.status = .error ∧ u.err = .illegalCommand ∧ u.errWord = 5 ∧ u.mem = ⟨[], []⟩ ∧ u.idx = s.idx ∧ u.cmd = w ∧
      u.capr = s.capr

/-- R168, R189, R186, R208: every command, from every state, ends in one of two ways, with the frame of each. -/
def Obligations.EveryCallEndsOneOfTwoWays : Prop :=
  ∀ (i : Instr) (s : State), ∃ t, exec i s = .next t ∧
    ((∃ out idx, CallSucceeds s t out idx ∧ (writesIdx i = false → idx = s.idx)) ∨ ∃ k, CallFails s t k ∧ k ≠ .noError)

/-- R220: the kinds each command can report, and that each of them is reported by some call. -/
def Obligations.ErrorKindMatrix : Prop :=
  (∀ (i : Instr) (s : State), ∃ t, exec i s = .next t ∧ (t.status = .error → t.err ∈ possibleKinds i)) ∧
  ∀ (i : Instr) (k : ErrorKind), k ∈ possibleKinds i → ∃ s t, s.Inv ∧ exec i s = .next t ∧ t.status = .error ∧ t.err = k

/-- R41, R119: the result of a call depends on LCMD, LILL, IBUF, IDX and CAP only, not on hidden content, OBUF or earlier calls:
for each command, and for the core's turn of a running call. -/
def Obligations.NoCrossCallLeakage : Prop :=
  ∀ s u : State, s.mem.ibuf = u.mem.ibuf → s.idx = u.idx → s.capr = u.capr →
    (∀ i : Instr, ∃ s' u', exec i s = .next s' ∧ exec i u = .next u' ∧ SameResult s' u') ∧
    (s.status = .busy → u.status = .busy → s.lcmd = u.lcmd → s.lill = u.lill →
      ∀ s', coreTurn s = .next s' → ∃ u', coreTurn u = .next u' ∧ SameResult s' u')

/-- R85, R25: a command that the table says does not read IDX gives the same result whatever IDX holds. -/
def Obligations.IdxIsReadByTwoCommandsOnly : Prop :=
  ∀ (i : Instr) (s : State) (v : Word), readsIdx i = false →
    ∃ t u, exec i s = .next t ∧ exec i { s with idx := v } = .next u ∧ t.mem = u.mem ∧ t.status = u.status ∧ t.err = u.err ∧
      (t.status = .done → writesIdx i = true → t.idx = u.idx)

/-! ### The ten commands (files 40 to 44) -/

/-- R95: BWT_FWD. -/
def Obligations.BwtFwdResult : Prop :=
  decode 0x00000002#32 = .ok .bwtFwd ∧
  ∀ s : State,
    (s.mem.ibuf = [] → ∃ t, exec .bwtFwd s = .next t ∧ CallFails s t .corruptTransform) ∧
    (∀ L k, s.mem.ibuf ≠ [] → IsBwt s.mem.ibuf L k →
      ∃ t, exec .bwtFwd s = .next t ∧ CallSucceeds s t L (BitVec.ofNat 32 k) ∧
        (s.mem.ibuf.length ≤ s.cap → t.idx.toNat = k))

/-- R99: BWT_INV, for every row table of R98, whatever it did with identical rows (R97, R100). -/
def Obligations.BwtInvResult : Prop :=
  decode 0x00000003#32 = .ok .bwtInv ∧
  ∀ s : State,
    (s.mem.ibuf.length ≤ s.idx.toNat → ∃ t, exec .bwtInv s = .next t ∧ CallFails s t .corruptTransform) ∧
    (∀ T, s.idx.toNat < s.mem.ibuf.length → IsRowTable s.mem.ibuf s.mem.ibuf.length T →
      ∃ t, exec .bwtInv s = .next t ∧ CallSucceeds s t (T.getD s.idx.toNat []) s.idx)

/-- R113: MTF_ENC; it never fails. -/
def Obligations.MtfEncResult : Prop :=
  decode 0x00000004#32 = .ok .mtfEnc ∧
  ∀ s : State, ∃ t R, exec .mtfEnc s = .next t ∧ CallSucceeds s t R s.idx ∧ IsMtf s.mem.ibuf R

/-- R114, R115: MTF_DEC; it never fails. -/
def Obligations.MtfDecResult : Prop :=
  decode 0x00000005#32 = .ok .mtfDec ∧
  ∀ s : State, ∃ t S, exec .mtfDec s = .next t ∧ CallSucceeds s t S s.idx ∧ IsMtf S s.mem.ibuf

/-- R135 with R130 to R132: RLE_ENC. -/
def Obligations.RleEncResult : Prop :=
  decode 0x00000006#32 = .ok .rleEnc ∧
  ∀ (s : State) (B : Bytes), IsRle s.mem.ibuf B →
    (B.length ≤ s.cap → ∃ t, exec .rleEnc s = .next t ∧ CallSucceeds s t B s.idx) ∧
    (s.cap < B.length → ∃ t, exec .rleEnc s = .next t ∧ CallFails s t .capacityExceeded)

/-- R139: RLE_DEC, the tests in their order. -/
def Obligations.RleDecResult : Prop :=
  decode 0x00000007#32 = .ok .rleDec ∧
  ∀ s : State,
    (s.mem.ibuf.length % 2 = 1 → ∃ t, exec .rleDec s = .next t ∧ CallFails s t .corruptTransform) ∧
    (s.mem.ibuf.length % 2 = 0 → HasZeroCount s.mem.ibuf →
      ∃ t, exec .rleDec s = .next t ∧ CallFails s t .corruptTransform) ∧
    (LegalRunList s.mem.ibuf → s.cap < countTotal s.mem.ibuf →
      ∃ t, exec .rleDec s = .next t ∧ CallFails s t .capacityExceeded) ∧
    (LegalRunList s.mem.ibuf → countTotal s.mem.ibuf ≤ s.cap →
      ∃ t, exec .rleDec s = .next t ∧ CallSucceeds s t (expansion s.mem.ibuf) s.idx ∧
        t.mem.obuf.length = countTotal s.mem.ibuf)

/-- R151, R150, R152: SER_WR, which looks at nothing but the capacity. -/
def Obligations.SerWrResult : Prop :=
  decode 0x00000008#32 = .ok .serWr ∧
  ∀ s : State,
    (s.mem.ibuf.length + 4 ≤ s.cap →
      ∃ t, exec .serWr s = .next t ∧ CallSucceeds s t (headerBytes s.idx ++ s.mem.ibuf) s.idx) ∧
    (s.cap < s.mem.ibuf.length + 4 → ∃ t, exec .serWr s = .next t ∧ CallFails s t .capacityExceeded)

/-- R154, R156: SER_RD, the header before the parity; neither the index nor a count is tested. -/
def Obligations.SerRdResult : Prop :=
  decode 0x00000009#32 = .ok .serRd ∧
  ∀ s : State,
    (s.mem.ibuf.length < 4 → ∃ t, exec .serRd s = .next t ∧ CallFails s t .truncatedHeader) ∧
    (4 ≤ s.mem.ibuf.length → (s.mem.ibuf.length - 4) % 2 = 1 →
      ∃ t, exec .serRd s = .next t ∧ CallFails s t .truncatedPayload) ∧
    (4 ≤ s.mem.ibuf.length → (s.mem.ibuf.length - 4) % 2 = 0 →
      ∃ t, exec .serRd s = .next t ∧ CallSucceeds s t (s.mem.ibuf.drop 4) t.idx ∧ t.idx.toNat = headerIndex s.mem.ibuf)

/-- R161: COMPRESS is the four stages in order, the index carried past the middle two; IDX neither read nor written. -/
def Obligations.CompressResult : Prop :=
  decode 0x00000000#32 = .ok .compress ∧
  ∀ s : State,
    (s.mem.ibuf = [] → ∃ t, exec .compress s = .next t ∧ CallFails s t .corruptTransform) ∧
    (∀ L k R B, s.mem.ibuf ≠ [] → IsBwt s.mem.ibuf L k → IsMtf L R → IsRle R B →
      (4 + B.length ≤ s.cap →
        ∃ t, exec .compress s = .next t ∧ CallSucceeds s t (headerBytes (BitVec.ofNat 32 k) ++ B) s.idx) ∧
      (s.cap < 4 + B.length → ∃ t, exec .compress s = .next t ∧ CallFails s t .capacityExceeded))

/-- R164, R165: DECOMPRESS, the tests in the order of R165's table, then the four stages' result. -/
def Obligations.DecompressResult : Prop :=
  decode 0x00000001#32 = .ok .decompress ∧
  ∀ (s : State) (X B : Bytes), X = s.mem.ibuf → B = X.drop 4 →
    (X.length < 4 → ∃ t, exec .decompress s = .next t ∧ CallFails s t .truncatedHeader) ∧
    (4 ≤ X.length → B.length % 2 = 1 → ∃ t, exec .decompress s = .next t ∧ CallFails s t .truncatedPayload) ∧
    (4 ≤ X.length → B.length % 2 = 0 → HasZeroCount B →
      ∃ t, exec .decompress s = .next t ∧ CallFails s t .corruptTransform) ∧
    (4 ≤ X.length → LegalRunList B → s.cap < countTotal B →
      ∃ t, exec .decompress s = .next t ∧ CallFails s t .capacityExceeded) ∧
    (4 ≤ X.length → LegalRunList B → countTotal B ≤ s.cap → countTotal B ≤ headerIndex X →
      ∃ t, exec .decompress s = .next t ∧ CallFails s t .corruptTransform) ∧
    (∀ L T, 4 ≤ X.length → LegalRunList B → countTotal B ≤ s.cap → headerIndex X < countTotal B →
      IsMtf L (expansion B) → IsRowTable L L.length T →
      ∃ t, exec .decompress s = .next t ∧ CallSucceeds s t (T.getD (headerIndex X) []) s.idx)

/-! ### The transforms exist and are unique, whatever the method (R93, R96 to R100, R111, R130) -/

/-- R93: the canonical permutation of a sequence exists and is unique, and PERM holds it. -/
def Obligations.CanonicalPermExistsUnique : Prop :=
  ∀ S : Bytes, CanonicalPerm S (perm S) ∧ ∀ P, CanonicalPerm S P → P = perm S

/-- R97, R98, R100: the row table exists and does not depend on the order of identical rows; ROWS holds it. -/
def Obligations.RowTableIgnoresTies : Prop :=
  ∀ (L : Bytes) (j : Nat), IsRowTable L j (rowTable L j) ∧ ∀ T, IsRowTable L j T → T = rowTable L j

/-- R117: every sequence has exactly one rank sequence, and every rank sequence comes from exactly one sequence. -/
def Obligations.MtfIsBijection : Prop :=
  (∀ S : Bytes, ∃ R, IsMtf S R ∧ ∀ R', IsMtf S R' → R' = R) ∧ ∀ R : Bytes, ∃ S, IsMtf S R ∧ ∀ S', IsMtf S' R → S' = S

/-- R130: every sequence has exactly one decomposition into maximal runs, empty exactly for the empty sequence. -/
def Obligations.MaximalRunsUnique : Prop :=
  ∀ S : Bytes, ∃ rs, MaximalRuns S rs ∧ (∀ rs', MaximalRuns S rs' → rs' = rs) ∧ (rs = [] ↔ S = [])

/-- R134: the run detector emits exactly the split maximal runs, whatever VAL and CNT held before. -/
def Obligations.RunDetectorEmitsRuns : Prop :=
  ∀ (d : RunDetector) (S : Bytes) (rs : List (Nat × Byte)), d.held = false → MaximalRuns S rs →
    serPairs (rdetScan d S).2 = rs.flatMap fun r => splitRun r.1 r.2

/-- R116: SYM is a permutation of 0..255 after any number of encoded or decoded symbols. -/
def Obligations.SymbolTableStaysPermutation : Prop :=
  (∀ S, (mtfEncLoop identityTable S).2.Perm identityTable) ∧
  (∀ R, ∃ out, mtfDecLoop identityTable R = .ok out ∧ out.2.Perm identityTable) ∧
  identityTable.Nodup ∧ ∀ b : Byte, b ∈ identityTable

/-! ### The laws of the transforms -/

/-- R101: what BWT_FWD delivers, BWT_INV turns back, also with duplicate rotations. -/
def Obligations.BwtBijection : Prop :=
  ∀ s : State, s.mem.ibuf ≠ [] → s.mem.ibuf.length ≤ s.cap →
    ∃ t, exec .bwtFwd s = .next t ∧ t.status = .done ∧
      ∀ u : State, u.mem.ibuf = t.mem.obuf → u.idx = t.idx →
        ∃ v, exec .bwtInv u = .next v ∧ CallSucceeds u v s.mem.ibuf u.idx

/-- R98, R242, R170: on a forward image any index below the length gives that row's rotation of the original, without error. -/
def Obligations.WrongIndexGivesRotation : Prop :=
  ∀ (u : State) (S L : Bytes) (P : List Nat), CanonicalPerm S P → L = P.map (fun i => (rotation S i).getLastD 0) →
    u.mem.ibuf = L → u.idx.toNat < L.length →
    ∃ v, exec .bwtInv u = .next v ∧ CallSucceeds u v (rotation S (P.getD u.idx.toNat 0)) u.idx

/-- R104: the transformed sequence is a rearrangement of the input. -/
def Obligations.BwtRearranges : Prop :=
  ∀ s : State, s.mem.ibuf ≠ [] →
    ∃ t, exec .bwtFwd s = .next t ∧ t.status = .done ∧ t.mem.obuf.Perm s.mem.ibuf

/-- R94: the index is the smallest row whose rotation equals the input. -/
def Obligations.PrimaryIndexIsFirstEqualRow : Prop :=
  ∀ (S L : Bytes) (P : List Nat) (k : Nat), S ≠ [] → CanonicalPerm S P → IsBwt S L k →
    rotation S (P.getD k 0) = S ∧ ∀ j, j < k → rotation S (P.getD j 0) ≠ S

/-- R117, R118: MTF_DEC undoes MTF_ENC and MTF_ENC undoes MTF_DEC; lengths are kept. -/
def Obligations.MtfRoundTrips : Prop :=
  ∀ s : State,
    (∃ t, exec .mtfEnc s = .next t ∧ t.mem.obuf.length = s.mem.ibuf.length ∧ ∀ u : State, u.mem.ibuf = t.mem.obuf →
      ∃ v, exec .mtfDec u = .next v ∧ CallSucceeds u v s.mem.ibuf u.idx) ∧
    (∃ t, exec .mtfDec s = .next t ∧ t.mem.obuf.length = s.mem.ibuf.length ∧ ∀ u : State, u.mem.ibuf = t.mem.obuf →
      ∃ v, exec .mtfEnc u = .next v ∧ CallSucceeds u v s.mem.ibuf u.idx)

/-- R140, R136: RLE_DEC undoes a successful RLE_ENC; the counts sum to the input's length and each is 1 to 255. -/
def Obligations.RleRoundTrip : Prop :=
  ∀ s : State, s.mem.ibuf.length ≤ s.cap →
    ∃ t, exec .rleEnc s = .next t ∧ (t.status = .done →
      LegalRunList t.mem.obuf ∧ countTotal t.mem.obuf = s.mem.ibuf.length ∧
      ∀ u : State, u.mem.ibuf = t.mem.obuf → u.capr = s.capr →
        ∃ v, exec .rleDec u = .next v ∧ CallSucceeds u v s.mem.ibuf u.idx)

/-- R141: how long RLE_ENC's and RLE_DEC's outputs are. -/
def Obligations.RleLengthBounds : Prop :=
  ∀ s : State,
    (∃ t, exec .rleEnc s = .next t ∧ (t.status = .done →
      2 * ((s.mem.ibuf.length + 254) / 255) ≤ t.mem.obuf.length ∧ t.mem.obuf.length ≤ 2 * s.mem.ibuf.length)) ∧
    (∃ t, exec .rleDec s = .next t ∧ (t.status = .done →
      s.mem.ibuf.length / 2 ≤ t.mem.obuf.length ∧ t.mem.obuf.length ≤ 255 * (s.mem.ibuf.length / 2)))

/-- R155: SER_RD undoes a successful SER_WR of a RunList of even length, index and bytes; SER_WR undoes SER_RD. -/
def Obligations.SerializerRoundTrips : Prop :=
  ∀ s : State,
    (s.mem.ibuf.length % 2 = 0 → s.mem.ibuf.length + 4 ≤ s.cap →
      ∃ t, exec .serWr s = .next t ∧ t.status = .done ∧ ∀ u : State, u.mem.ibuf = t.mem.obuf →
        ∃ v, exec .serRd u = .next v ∧ CallSucceeds u v s.mem.ibuf s.idx) ∧
    (4 ≤ s.mem.ibuf.length → s.mem.ibuf.length % 2 = 0 → s.mem.ibuf.length ≤ s.cap →
      ∃ t, exec .serRd s = .next t ∧ t.status = .done ∧
        ∀ u : State, u.mem.ibuf = t.mem.obuf → u.idx = t.idx → u.capr = s.capr →
          ∃ v, exec .serWr u = .next v ∧ CallSucceeds u v s.mem.ibuf u.idx)

/-! ### The pipeline's laws (44_pipeline.md section 4) -/

/-- R167: what COMPRESS delivers, DECOMPRESS turns back, on an instance of the same capacity; and COMPRESS delivers whenever the
input has at most (CAP - 4) / 2 bytes. -/
def Obligations.CompressDecompressRoundTrip : Prop :=
  ∀ s : State, s.mem.ibuf ≠ [] → s.mem.ibuf.length ≤ s.cap →
    ∃ t, exec .compress s = .next t ∧ (2 * s.mem.ibuf.length + 4 ≤ s.cap → t.status = .done) ∧ (t.status = .done →
      ∀ u : State, u.mem.ibuf = t.mem.obuf → u.capr = s.capr →
        ∃ v, exec .decompress u = .next v ∧ CallSucceeds u v s.mem.ibuf u.idx)

/-- R167, R235: an input of at most (CAP - 4) / 2 bytes always compresses. -/
def Obligations.SmallInputsCompress : Prop :=
  ∀ s : State, s.mem.ibuf ≠ [] → 2 * s.mem.ibuf.length + 4 ≤ s.cap →
    ∃ t out, exec .compress s = .next t ∧ CallSucceeds s t out s.idx ∧ 6 ≤ out.length ∧
      out.length ≤ 4 + 2 * s.mem.ibuf.length ∧ out.length % 2 = 0

/-- R84, R167, R171: the whole host script ROUNDTRIP, with any number of polls that find the block BUSY, returns its input. -/
def Obligations.RoundTripScriptReturnsInput : Prop :=
  ∀ (s : State) (polls : Nat) (S : Bytes), s.status ≠ .busy → S ≠ [] → 2 * S.length + 4 ≤ s.cap →
    ∃ t, Sys2Proof.core.run ((scriptEvents polls [.roundtrip S]).length + 1)
        { s with agenda := scriptEvents polls [.roundtrip S] } = .next t ∧
      t.status = .done ∧ t.mem.obuf = S ∧ t.mem.ibuf = [] ∧ t.idx = s.idx ∧ t.replies.head? = some (.sequence S) ∧ t.agenda = []

/-- R162: COMPRESS equals the four stage commands in sequence: the same bytes read, or the same kind at the first command that
fails. -/
def Obligations.CompressEqualsStages : Prop :=
  ∀ (s : State) (polls : Nat) (S : Bytes), s.status ≠ .busy → S.length ≤ s.cap →
    ∃ t, Sys2Proof.core.run (scriptEvents polls (compressScript S)).length
        { s with agenda := scriptEvents polls (compressScript S) } = .next t ∧
      (t.status = .done → ∃ u, Sys2Proof.core.run ((scriptEvents polls (stageScript S)).length + 3)
          { s with agenda := scriptEvents polls (stageScript S) } = .next u ∧
        u.status = .done ∧ u.mem.obuf = t.mem.obuf ∧ u.replies.head? = t.replies.head?) ∧
      (t.status = .error → ∃ m u, 3 ≤ m ∧
        Sys2Proof.core.run m { s with agenda := scriptEvents polls (stageScript S) } = .next u ∧
        u.status = .error ∧ u.err = t.err) ∧
      (t.status = .done ∨ t.status = .error)

/-! ### The machine as a whole -/

/-- The invariant holds of every state after reset, whatever the capacity within R7's bounds. -/
def Obligations.ResetSatisfiesInvariant : Prop :=
  State.reset.Inv ∧ ∀ capr : Word, 6 ≤ capr.toNat → (State.resetWith capr).Inv

/-- Every step keeps the invariant. -/
def Obligations.StepKeepsInvariant : Prop :=
  ∀ s t : State, s.Inv → step s = .next t → t.Inv

/-- R185, R189: with the invariant no step faults, and a turn of the core or of the environment always has a next state. Four
points are the model's: a turn of the core while not BUSY is a step that changes nothing (log 7; R180 enables COMPLETE only while
BUSY), the schedule and its turns (log 1), an empty schedule as the core's turn (log 16), and the fault of latches that R184 shuts out
(log 9). -/
def Obligations.CoreAndResetNeverStop : Prop :=
  ∀ s : State, s.Inv → (∀ f, step s ≠ .fault f) ∧
    (s.agenda = [] ∨ (∃ rest, s.agenda = .core :: rest) ∨ (∃ rest, s.agenda = .reset :: rest) → ∃ t, step s = .next t)

/-- R189, R246: a started call completes after any finite number of reads that the host may make meanwhile. -/
def Obligations.StartedCallCompletes : Prop :=
  ∀ (s : State) (regs : List Nat), s.Inv → s.status = .busy →
    (∀ r, r ∈ regs → r = 0 ∨ r = 1 ∨ r = 2 ∨ r = 6) → s.agenda = regs.map (fun r => .host (.readReg r)) →
    ∃ t, Sys2Proof.core.run (regs.length + 1) s = .next t ∧ (t.status = .done ∨ t.status = .error) ∧ t.mem.ibuf = [] ∧
      t.cmd = s.cmd ∧ t.agenda = []

/-- R25 to R27, R29, R21, R23: which steps write CAPR (none), STATE, IDX, CMD, IBUF and OBUF. -/
def Obligations.OnlyTheseStepsWrite : Prop :=
  ∀ s t : State, step s = .next t →
    let startTurn := ∃ w rest, s.agenda = .host (.start w) :: rest ∨ s.agenda = .host (.writeReg 0 w) :: rest
    let completion := s.status = .busy ∧ (s.agenda = [] ∨ ∃ rest, s.agenda = .core :: rest)
    let resetTurn := ∃ rest, s.agenda = .reset :: rest
    t.capr = s.capr ∧
    (t.status ≠ s.status → startTurn ∨ completion ∨ resetTurn) ∧
    (t.cmd ≠ s.cmd → startTurn ∨ resetTurn) ∧
    (t.mem.obuf ≠ s.mem.obuf → startTurn ∨ completion ∨ resetTurn) ∧
    (t.mem.ibuf ≠ s.mem.ibuf → completion ∨ resetTurn ∨ ∃ seq rest, s.agenda = .host (.load seq) :: rest) ∧
    (t.idx ≠ s.idx → resetTurn ∨
      (∃ v rest, s.agenda = .host (.setIdx v) :: rest ∨ s.agenda = .host (.writeReg 3 v) :: rest) ∨
      (completion ∧ t.status = .done ∧ ∃ i, decodeLatch s.lcmd = some i ∧ writesIdx i = true))
end

