-- ==== Sys2Proof/Laws/State.lean ====
section
/-! SUPPORT. What each shared update of the state leaves in each field, so that no proof unfolds a record update. -/

namespace Sys2Proof.Machine

variable (s : State)

/-! ### discardWork -/

@[simp] theorem discardWork_mem : (discardWork s).mem = s.mem := rfl
@[simp] theorem discardWork_idx : (discardWork s).idx = s.idx := rfl
@[simp] theorem discardWork_cmd : (discardWork s).cmd = s.cmd := rfl
@[simp] theorem discardWork_status : (discardWork s).status = s.status := rfl
@[simp] theorem discardWork_err : (discardWork s).err = s.err := rfl
@[simp] theorem discardWork_capr : (discardWork s).capr = s.capr := rfl
@[simp] theorem discardWork_lcmd : (discardWork s).lcmd = Config.freeLcmd s.tick := rfl
@[simp] theorem discardWork_lill : (discardWork s).lill = Config.freeLill s.tick := rfl
@[simp] theorem discardWork_work : (discardWork s).work = Working.free s.cap s.tick := rfl
@[simp] theorem discardWork_agenda : (discardWork s).agenda = s.agenda := rfl
@[simp] theorem discardWork_replies : (discardWork s).replies = s.replies := rfl
@[simp] theorem discardWork_tick : (discardWork s).tick = s.tick + 1 := rfl
@[simp] theorem discardWork_cap : (discardWork s).cap = s.cap := rfl

/-! ### succeed -/

@[simp] theorem succeed_mem (h : Handover) : (succeed h s).mem = ⟨[], h.seq⟩ := rfl
@[simp] theorem succeed_idx (h : Handover) : (succeed h s).idx = h.idx.getD s.idx := rfl
@[simp] theorem succeed_cmd (h : Handover) : (succeed h s).cmd = s.cmd := rfl
@[simp] theorem succeed_status (h : Handover) : (succeed h s).status = .done := rfl
@[simp] theorem succeed_err (h : Handover) : (succeed h s).err = .noError := rfl
@[simp] theorem succeed_capr (h : Handover) : (succeed h s).capr = s.capr := rfl
@[simp] theorem succeed_lcmd (h : Handover) : (succeed h s).lcmd = Config.freeLcmd s.tick := rfl
@[simp] theorem succeed_lill (h : Handover) : (succeed h s).lill = Config.freeLill s.tick := rfl
@[simp] theorem succeed_work (h : Handover) : (succeed h s).work = Working.free s.cap s.tick := rfl
@[simp] theorem succeed_agenda (h : Handover) : (succeed h s).agenda = s.agenda := rfl
@[simp] theorem succeed_replies (h : Handover) : (succeed h s).replies = s.replies := rfl
@[simp] theorem succeed_tick (h : Handover) : (succeed h s).tick = s.tick + 1 := rfl
@[simp] theorem succeed_cap (h : Handover) : (succeed h s).cap = s.cap := rfl

/-! ### raiseError -/

@[simp] theorem raiseError_mem (k : ErrorKind) : (raiseError k s).mem = ⟨[], []⟩ := rfl
@[simp] theorem raiseError_idx (k : ErrorKind) : (raiseError k s).idx = s.idx := rfl
@[simp] theorem raiseError_cmd (k : ErrorKind) : (raiseError k s).cmd = s.cmd := rfl
@[simp] theorem raiseError_status (k : ErrorKind) : (raiseError k s).status = .error := rfl
@[simp] theorem raiseError_err (k : ErrorKind) : (raiseError k s).err = k := rfl
@[simp] theorem raiseError_capr (k : ErrorKind) : (raiseError k s).capr = s.capr := rfl
@[simp] theorem raiseError_lcmd (k : ErrorKind) : (raiseError k s).lcmd = Config.freeLcmd s.tick := rfl
@[simp] theorem raiseError_lill (k : ErrorKind) : (raiseError k s).lill = Config.freeLill s.tick := rfl
@[simp] theorem raiseError_work (k : ErrorKind) : (raiseError k s).work = Working.free s.cap s.tick := rfl
@[simp] theorem raiseError_agenda (k : ErrorKind) : (raiseError k s).agenda = s.agenda := rfl
@[simp] theorem raiseError_replies (k : ErrorKind) : (raiseError k s).replies = s.replies := rfl
@[simp] theorem raiseError_tick (k : ErrorKind) : (raiseError k s).tick = s.tick + 1 := rfl
@[simp] theorem raiseError_cap (k : ErrorKind) : (raiseError k s).cap = s.cap := rfl

/-! ### startCall -/

@[simp] theorem startCall_mem (w : Word) : (startCall w s).mem = ⟨s.mem.ibuf, []⟩ := rfl
@[simp] theorem startCall_idx (w : Word) : (startCall w s).idx = s.idx := rfl
@[simp] theorem startCall_cmd (w : Word) : (startCall w s).cmd = w := rfl
@[simp] theorem startCall_status (w : Word) : (startCall w s).status = .busy := rfl
@[simp] theorem startCall_err (w : Word) : (startCall w s).err = .noError := rfl
@[simp] theorem startCall_capr (w : Word) : (startCall w s).capr = s.capr := rfl
@[simp] theorem startCall_lcmd (w : Word) : (startCall w s).lcmd = opcField w := rfl
@[simp] theorem startCall_lill (w : Word) : (startCall w s).lill = illegalWord w := rfl
@[simp] theorem startCall_work (w : Word) : (startCall w s).work = s.work := rfl
@[simp] theorem startCall_agenda (w : Word) : (startCall w s).agenda = s.agenda := rfl
@[simp] theorem startCall_replies (w : Word) : (startCall w s).replies = s.replies := rfl
@[simp] theorem startCall_tick (w : Word) : (startCall w s).tick = s.tick := rfl
@[simp] theorem startCall_cap (w : Word) : (startCall w s).cap = s.cap := rfl

/-! ### resetStep -/

@[simp] theorem resetStep_mem : (resetStep s).mem = ⟨[], []⟩ := rfl
@[simp] theorem resetStep_idx : (resetStep s).idx = 0 := rfl
@[simp] theorem resetStep_cmd : (resetStep s).cmd = 0 := rfl
@[simp] theorem resetStep_status : (resetStep s).status = .idle := rfl
@[simp] theorem resetStep_err : (resetStep s).err = .noError := rfl
@[simp] theorem resetStep_capr : (resetStep s).capr = s.capr := rfl
@[simp] theorem resetStep_lcmd : (resetStep s).lcmd = Config.freeLcmd s.tick := rfl
@[simp] theorem resetStep_lill : (resetStep s).lill = Config.freeLill s.tick := rfl
@[simp] theorem resetStep_work : (resetStep s).work = Working.free s.cap s.tick := rfl
@[simp] theorem resetStep_agenda : (resetStep s).agenda = s.agenda := rfl
@[simp] theorem resetStep_replies : (resetStep s).replies = s.replies := rfl
@[simp] theorem resetStep_tick : (resetStep s).tick = s.tick + 1 := rfl
@[simp] theorem resetStep_cap : (resetStep s).cap = s.cap := rfl

/-! ### answer -/

@[simp] theorem answer_mem (r : Reply) : (answer r s).mem = s.mem := rfl
@[simp] theorem answer_idx (r : Reply) : (answer r s).idx = s.idx := rfl
@[simp] theorem answer_cmd (r : Reply) : (answer r s).cmd = s.cmd := rfl
@[simp] theorem answer_status (r : Reply) : (answer r s).status = s.status := rfl
@[simp] theorem answer_err (r : Reply) : (answer r s).err = s.err := rfl
@[simp] theorem answer_capr (r : Reply) : (answer r s).capr = s.capr := rfl
@[simp] theorem answer_lcmd (r : Reply) : (answer r s).lcmd = s.lcmd := rfl
@[simp] theorem answer_lill (r : Reply) : (answer r s).lill = s.lill := rfl
@[simp] theorem answer_work (r : Reply) : (answer r s).work = s.work := rfl
@[simp] theorem answer_agenda (r : Reply) : (answer r s).agenda = s.agenda := rfl
@[simp] theorem answer_replies (r : Reply) : (answer r s).replies = r :: s.replies := rfl
@[simp] theorem answer_tick (r : Reply) : (answer r s).tick = s.tick := rfl
@[simp] theorem answer_cap (r : Reply) : (answer r s).cap = s.cap := rfl

/-! ### Hidden storage and reset -/

@[simp] theorem Working.free_stage (cap n : Nat) : (Working.free cap n).stage = .none := rfl

@[simp] theorem Working.free_sym_length (cap n : Nat) : (Working.free cap n).sym.length = 256 := by
  simp [Working.free]

theorem Working.free_xbuf_length_le (cap n : Nat) : (Working.free cap n).xbuf.length ≤ cap := by
  simp [Working.free]

theorem configCap_min : 6 ≤ Config.cap.toNat := by
  unfold Config.cap
  split
  · decide
  · omega

end Sys2Proof.Machine
end

