-- ==== Sys2Proof/Laws/Ops.lean ====
section
/-! SUPPORT. One lemma for each shared operation that says once what it does: packing, the latches, the two endings of a call, stage
composition, and the canonical form of memory. -/

namespace Sys2Proof.Machine

/-! ### Packing (00_scope.md R12) -/

theorem be32_eq_headerBytes (v : Word) : be32 v = headerBytes v := by
  simp [be32, headerBytes, byteAt, BitVec.extractLsb', Nat.shiftRight_eq_div_pow]

theorem unbe32_toNat (b0 b1 b2 b3 : Byte) :
    (unbe32 b0 b1 b2 b3).toNat = b0.toNat * 2 ^ 24 + b1.toNat * 2 ^ 16 + b2.toNat * 2 ^ 8 + b3.toNat := by
  have h0 := b0.isLt
  have h1 := b1.isLt
  have h2 := b2.isLt
  have h3 := b3.isLt
  simp only [unbe32, BitVec.toNat_append]
  rw [← Nat.shiftLeft_add_eq_or_of_lt (by omega : b1.toNat < 2 ^ 8), ← Nat.shiftLeft_add_eq_or_of_lt (by omega : b3.toNat < 2 ^ 8),
    ← Nat.shiftLeft_add_eq_or_of_lt (by simp only [Nat.shiftLeft_eq]; omega)]
  simp only [Nat.shiftLeft_eq]
  omega

/-! ### The command latches (10_state.md R36) -/

theorem opcField_toNat (w : Word) : (opcField w).toNat = w.toNat % 16 := by
  simp [opcField, BitVec.extractLsb']

theorem zeroField_eq_zero_iff (w : Word) : zeroField w = 0#28 ↔ w.toNat < 16 := by
  have h := w.isLt
  constructor
  · intro h0
    have h1 := congrArg BitVec.toNat h0
    simp only [zeroField, BitVec.extractLsb', BitVec.toNat_ofNat, Nat.shiftRight_eq_div_pow] at h1
    omega
  · intro h0
    apply BitVec.eq_of_toNat_eq
    simp only [zeroField, BitVec.extractLsb', BitVec.toNat_ofNat, Nat.shiftRight_eq_div_pow]
    omega

/-- A word with ZERO = 0 is what its low four bits, latched and widened again, are. -/
theorem setWidth_opcField {w : Word} (h : zeroField w = 0#28) : (opcField w).setWidth 32 = w := by
  apply BitVec.eq_of_toNat_eq
  have h1 := (zeroField_eq_zero_iff w).1 h
  simp [opcField_toNat]
  omega

/-- The latches of a legal word select its command (R183, R184). -/
theorem decodeLatch_opcField {w : Word} {i : Instr} (h : decode w = .ok i) : decodeLatch (opcField w) = some i := by
  have hz : zeroField w = 0#28 := by
    by_contra hz
    simp [decode, hz] at h
  rw [decodeLatch, setWidth_opcField hz, h]
  rfl

theorem illegalWord_eq_false_iff (w : Word) : illegalWord w = false ↔ ∃ i, decode w = .ok i := by
  unfold illegalWord
  cases decode w <;> simp

/-- The latches of a running call (the invariant's `latched`) select a command unless LILL is set (R184). -/
theorem decodeLatch_of_legal {w : Word} (h : illegalWord w = false) : ∃ i, decode w = .ok i ∧ decodeLatch (opcField w) = some i := by
  obtain ⟨i, hi⟩ := (illegalWord_eq_false_iff w).1 h
  exact ⟨i, hi, decodeLatch_opcField hi⟩

/-! ### The endings of a call (45_host_interface.md R185) -/

@[simp] theorem complete_ok (h : Handover) (s : State) : complete (.ok h) s = succeed h s := rfl

@[simp] theorem complete_error (k : ErrorKind) (s : State) : complete (.error k) s = raiseError k s := rfl

/-- A successful completion is what R185 says. -/
theorem succeed_spec (h : Handover) (s : State) : CallSucceeds s (succeed h s) h.seq (h.idx.getD s.idx) :=
  { cmd := rfl, capr := rfl, agenda := rfl, replies := rfl, status := rfl, err := rfl, obuf := rfl, ibuf := rfl, idx := rfl, stage := rfl }

/-- The entry into an error is what R185 and R208 say. -/
theorem raiseError_spec (k : ErrorKind) (s : State) : CallFails s (raiseError k s) k :=
  { cmd := rfl, capr := rfl, agenda := rfl, replies := rfl, status := rfl, err := rfl, obuf := rfl, ibuf := rfl, idx := rfl, stage := rfl }

/-! ### Stage composition (00_scope.md R14) -/

@[simp] theorem thenStage_ok (h : Handover) (f : Working → Except ErrorKind Handover) : thenStage (.ok h) f = f h.latch := rfl

@[simp] theorem thenStage_error (k : ErrorKind) (f : Working → Except ErrorKind Handover) : thenStage (.error k) f = .error k := rfl

@[simp] theorem latch_xbuf (h : Handover) : h.latch.xbuf = h.seq := rfl

@[simp] theorem latch_pidx (h : Handover) : h.latch.pidx = h.idx.getD h.work.pidx := rfl

/-! ### Memory (20_memory.md R54) -/

theorem Memory.wf_iff (cap : Nat) (m : Memory) : m.wf cap = true ↔ ∀ sp, (m.space sp).length ≤ cap := by
  constructor
  · intro h sp
    simp only [Memory.wf, Bool.and_eq_true, decide_eq_true_eq] at h
    cases sp
    · exact h.1
    · exact h.2
  · intro h
    simp only [Memory.wf, Bool.and_eq_true, decide_eq_true_eq]
    exact ⟨h .ibuf, h .obuf⟩

theorem Memory.reset_wf (cap : Nat) : Memory.wf cap State.reset.mem = true := rfl

@[simp] theorem Spaces.get_set (σ : Spaces) (sp : Space) (b : ByteSpace) : (σ.set sp b).get sp = b := by cases sp <;> rfl

theorem Spaces.get_set_of_ne (σ : Spaces) {sp other : Space} (b : ByteSpace) (h : other ≠ sp) :
    (σ.set sp b).get other = σ.get other := by
  cases sp <;> cases other <;> first | rfl | exact absurd rfl h

@[simp] theorem Memory.spaces_get (cap : Nat) (m : Memory) (sp : Space) :
    (m.spaces cap).get sp = byteSpace cap (m.space sp) := by cases sp <;> rfl

theorem Spaces.wf_iff (cap : Nat) (σ : Spaces) :
    σ.wf cap = true ↔ ∀ sp, (σ.get sp).slots.length = cap ∧ (σ.get sp).len ≤ cap := by
  simp only [Spaces.wf, Bool.and_eq_true, decide_eq_true_eq]
  constructor
  · intro h sp
    cases sp
    · exact h.1
    · exact h.2
  · intro h
    exact ⟨h .ibuf, h .obuf⟩

/-- What a write answers: its bound, and the one space changed in the written slots (R54). -/
theorem Spaces.write_cases {σ σ' : Spaces} {sp : Space} {addr : Nat} {v : Bytes} (h : σ.write sp addr v = some σ') :
    addr + v.length ≤ (σ.get sp).slots.length ∧
    σ' = σ.set sp ⟨(σ.get sp).slots.take addr ++ v.map some ++ (σ.get sp).slots.drop (addr + v.length), (σ.get sp).len⟩ := by
  simp only [Spaces.write] at h
  split at h
  · cases h
    exact ⟨‹_›, rfl⟩
  · cases h

/-- Slots that all hold a value give those values. -/
theorem mapM_id_map_some (seq : Bytes) : (seq.map some).mapM (id : Option Byte → Option Byte) = some seq := by
  induction seq with
  | nil => rfl
  | cons b seq ih => simp [List.mapM_cons, ih]

/-- A space that holds a sequence up to its length reads as that sequence, whatever the slots beyond it hold. -/
theorem Spaces.read_of_holds {σ : Spaces} {sp : Space} {seq : Bytes} {beyond : List (Option Byte)}
    (h : σ.get sp = ⟨seq.map some ++ beyond, seq.length⟩) (addr n : Nat) :
    σ.read sp addr n = if addr + n ≤ seq.length then some ((seq.drop addr).take n) else none := by
  rw [Spaces.read, h]
  by_cases hb : addr + n ≤ seq.length
  · rw [if_pos hb, if_pos hb, List.drop_append_of_le_length (by rw [List.length_map]; omega),
      List.take_append_of_le_length (by rw [List.length_drop, List.length_map]; omega),
      ← List.map_drop, ← List.map_take, mapM_id_map_some]
  · rw [if_neg hb, if_neg hb]

/-- The spaces of a memory read as the memory does (R54). -/
theorem Memory.spaces_read (cap : Nat) (m : Memory) (sp : Space) (addr n : Nat) :
    (m.spaces cap).read sp addr n = m.read sp addr n :=
  Spaces.read_of_holds (Memory.spaces_get cap m sp) addr n

/-- A memory within its capacity is two spaces of CAP slots. -/
theorem Memory.spaces_wf {cap : Nat} {m : Memory} (hm : m.wf cap = true) : (m.spaces cap).wf cap = true := by
  rw [Memory.wf_iff] at hm
  rw [Spaces.wf_iff]
  intro sp
  have := hm sp
  simp only [Memory.spaces_get, byteSpace, List.length_append, List.length_map, List.length_replicate]
  omega

/-- Every write keeps the form of the spaces. -/
theorem Spaces.write_keeps_wf {cap : Nat} {σ σ' : Spaces} {sp : Space} {addr : Nat} {v : Bytes}
    (h : σ.write sp addr v = some σ') (hw : σ.wf cap = true) : σ'.wf cap = true := by
  obtain ⟨hb, rfl⟩ := Spaces.write_cases h
  rw [Spaces.wf_iff] at hw ⊢
  intro other
  by_cases ho : other = sp
  · subst ho
    have := hw other
    simp only [Spaces.get_set, List.length_append, List.length_take, List.length_map, List.length_drop]
    omega
  · rw [Spaces.get_set_of_ne _ _ ho]
    exact hw other

/-- A load that fits keeps the form of memory (R181). -/
theorem hostLoad_keeps_wf {seq : Bytes} {s t : State} (h : hostLoad seq s = .next t) (hm : s.mem.wf s.cap = true) :
    t.mem.wf t.cap = true := by
  unfold hostLoad at h
  split at h
  · cases h
  · split at h
    · cases h
    · cases h
      simp only [Memory.wf, Bool.and_eq_true, decide_eq_true_eq] at hm ⊢
      exact ⟨by simp only [State.cap] at *; omega, hm.2⟩

/-- START keeps the form of memory (R183). -/
theorem startCall_keeps_wf (w : Word) {s : State} (hm : s.mem.wf s.cap = true) :
    (startCall w s).mem.wf (startCall w s).cap = true := by
  simp only [Memory.wf, Bool.and_eq_true, decide_eq_true_eq] at hm ⊢
  exact ⟨hm.1, Nat.zero_le _⟩

/-- An output within CAP keeps the form of memory (R185). -/
theorem succeed_keeps_wf {h : Handover} {s : State} (hc : h.seq.length ≤ s.cap) :
    (succeed h s).mem.wf (succeed h s).cap = true := by
  simp [Memory.wf, hc]

theorem raiseError_keeps_wf (k : ErrorKind) (s : State) : (raiseError k s).mem.wf (raiseError k s).cap = true := by
  simp [Memory.wf]

theorem resetStep_keeps_wf (s : State) : (resetStep s).mem.wf (resetStep s).cap = true := by
  simp [Memory.wf]

/-- The cells of a space have the offsets 0, 1, ... as addresses, so they rise strictly. -/
theorem Memory.cells_addresses (m : Memory) (sp : Space) : (m.cells sp).map Prod.fst = List.range (m.space sp).length := by
  simp [Memory.cells, List.map_map, Function.comp_def, List.zipIdx_map_snd, List.range_eq_range']

end Sys2Proof.Machine
end

