-- ==== Sys2Proof/Laws/PerInstr.lean ====
section
/-! SUPPORT. What holds of each command as syntax, one lemma for each constructor. Family `UnitAndDirection`: a command is well-formed, is
the command of its unit and direction, and the field tables of 30_encoding.md R70 give its unit and direction back. -/

namespace Sys2Proof.Laws.UnitAndDirection

/-- The command is its unit's and its direction's, and both survive their field encodings (R70, R71). -/
def Statement (i : Instr) : Prop :=
  i.wf = true ∧ commandOf i.unit i.direction = i ∧ decodeUnit (encodeUnit i.unit) = some i.unit ∧
    decodeDir (encodeDir i.direction) = i.direction

theorem compress : Statement .compress := ⟨rfl, rfl, rfl, rfl⟩
theorem decompress : Statement .decompress := ⟨rfl, rfl, rfl, rfl⟩
theorem bwtFwd : Statement .bwtFwd := ⟨rfl, rfl, rfl, rfl⟩
theorem bwtInv : Statement .bwtInv := ⟨rfl, rfl, rfl, rfl⟩
theorem mtfEnc : Statement .mtfEnc := ⟨rfl, rfl, rfl, rfl⟩
theorem mtfDec : Statement .mtfDec := ⟨rfl, rfl, rfl, rfl⟩
theorem rleEnc : Statement .rleEnc := ⟨rfl, rfl, rfl, rfl⟩
theorem rleDec : Statement .rleDec := ⟨rfl, rfl, rfl, rfl⟩
theorem serWr : Statement .serWr := ⟨rfl, rfl, rfl, rfl⟩
theorem serRd : Statement .serRd := ⟨rfl, rfl, rfl, rfl⟩

end Sys2Proof.Laws.UnitAndDirection
end

