-- ==== Sys2Proof/Laws/Sort.lean ====
section
/-! SUPPORT. What the insertion sort of the BWT unit does: it rearranges, and under a total preorder its result is in order. -/

namespace Sys2Proof.Machine

variable {α : Type} (lt : α → α → Bool)

theorem insertSorted_perm (x : α) (ys : List α) : (insertSorted lt x ys).Perm (x :: ys) := by
  induction ys with
  | nil => simp [insertSorted]
  | cons y ys ih =>
    simp only [insertSorted]
    split
    · exact (ih.cons y).trans (List.Perm.swap x y ys)
    · exact List.Perm.refl _

theorem sortBy_perm (xs : List α) : (sortBy lt xs).Perm xs := by
  induction xs with
  | nil => simp [sortBy]
  | cons x xs ih => exact (insertSorted_perm lt x _).trans (ih.cons x)

@[simp] theorem sortBy_length (xs : List α) : (sortBy lt xs).length = xs.length := (sortBy_perm lt xs).length_eq

theorem mem_sortBy {x : α} {xs : List α} : x ∈ sortBy lt xs ↔ x ∈ xs := (sortBy_perm lt xs).mem_iff

/-- Inserting into a sorted list keeps it sorted: no later element is below an earlier one. -/
theorem insertSorted_pairwise {P : α → Prop}
    (asymm : ∀ a b, P a → P b → lt a b = true → lt b a = false)
    (trans : ∀ a b c, P a → P b → P c → lt b a = false → lt c b = false → lt c a = false)
    (x : α) (ys : List α) (hx : P x) (hys : ∀ y, y ∈ ys → P y)
    (h : ys.Pairwise fun a b => lt b a = false) : (insertSorted lt x ys).Pairwise fun a b => lt b a = false := by
  induction ys with
  | nil => simp [insertSorted]
  | cons y ys ih =>
    simp only [insertSorted]
    have hy : P y := hys y (by simp)
    have hys' : ∀ z, z ∈ ys → P z := fun z hz => hys z (by simp [hz])
    rw [List.pairwise_cons] at h
    split
    · rename_i hlt
      refine List.pairwise_cons.2 ⟨fun z hz => ?_, ih hys' h.2⟩
      rcases List.mem_cons.1 ((insertSorted_perm lt x ys).mem_iff.1 hz) with rfl | hz
      · exact asymm _ _ hy hx hlt
      · exact h.1 z hz
    · rename_i hnlt
      have hnlt : lt y x = false := by simpa using hnlt
      refine List.pairwise_cons.2 ⟨fun z hz => ?_, List.pairwise_cons.2 h⟩
      rcases List.mem_cons.1 hz with rfl | hz
      · exact hnlt
      · exact trans x y z hx hy (hys' z hz) hnlt (h.1 z hz)

/-- The sort's result is in order. -/
theorem sortBy_pairwise {P : α → Prop}
    (asymm : ∀ a b, P a → P b → lt a b = true → lt b a = false)
    (trans : ∀ a b c, P a → P b → P c → lt b a = false → lt c b = false → lt c a = false)
    (xs : List α) (hxs : ∀ x, x ∈ xs → P x) : (sortBy lt xs).Pairwise fun a b => lt b a = false := by
  induction xs with
  | nil => simp [sortBy]
  | cons x xs ih =>
    exact insertSorted_pairwise lt asymm trans x _ (hxs x (by simp))
      (fun y hy => hxs y (by simp [(mem_sortBy lt).1 hy])) (ih fun y hy => hxs y (by simp [hy]))

/-! ### The lexicographic order -/

theorem lexLt_irrefl (a : Bytes) : lexLt a a = false := by
  induction a with
  | nil => rfl
  | cons x xs ih => simp [lexLt, ih, BitVec.ult]

theorem lexLt_cons (a b : Byte) (as bs : Bytes) :
    lexLt (a :: as) (b :: bs) = true ↔ a.toNat < b.toNat ∨ (a = b ∧ lexLt as bs = true) := by
  simp [lexLt, BitVec.ult]

theorem lexLt_asymm (a b : Bytes) (h : lexLt a b = true) : lexLt b a = false := by
  induction a generalizing b with
  | nil => cases b <;> simp [lexLt] at h
  | cons x xs ih =>
    cases b with
    | nil => simp [lexLt] at h
    | cons y ys =>
      rw [lexLt_cons] at h
      rw [Bool.eq_false_iff]
      intro h'
      rw [lexLt_cons] at h'
      rcases h with h | ⟨rfl, h⟩ <;> rcases h' with h' | ⟨h1, h'⟩
      · omega
      · subst h1; omega
      · omega
      · simp [ih _ h] at h'

theorem lexLt_trans (a b c : Bytes) (h1 : lexLt a b = true) (h2 : lexLt b c = true) : lexLt a c = true := by
  induction a generalizing b c with
  | nil => cases b <;> simp [lexLt] at h1
  | cons x xs ih =>
    cases b with
    | nil => simp [lexLt] at h1
    | cons y ys =>
      cases c with
      | nil => simp [lexLt] at h2
      | cons z zs =>
        rw [lexLt_cons] at h1 h2 ⊢
        rcases h1 with h1 | ⟨rfl, h1⟩ <;> rcases h2 with h2 | ⟨rfl, h2⟩
        · left; omega
        · left; omega
        · left; omega
        · right; exact ⟨rfl, ih _ _ h1 h2⟩

/-- Sequences of one length, neither of which is below the other, are equal. -/
theorem eq_of_not_lexLt {a b : Bytes} (hl : a.length = b.length) (h1 : lexLt a b = false) (h2 : lexLt b a = false) :
    a = b := by
  induction a generalizing b with
  | nil => cases b <;> simp_all
  | cons x xs ih =>
    cases b with
    | nil => simp at hl
    | cons y ys =>
      rw [Bool.eq_false_iff, ne_eq, lexLt_cons, not_or] at h1 h2
      have hxy : x = y := BitVec.eq_of_toNat_eq (by omega)
      subst hxy
      simp only [List.length_cons, Nat.add_right_cancel_iff, true_and, Bool.not_eq_true] at hl h1 h2
      rw [ih hl h1.2 h2.2]

end Sys2Proof.Machine
end

