-- ==== Sys2Proof/Laws/Units.lean ====
section
/-! SUPPORT. One lemma for each unit operation that says once what it answers, so that callers never unfold it, and `exec` as the
completion of one result. -/

namespace Sys2Proof.Machine

/-- The result that `COMPLETE` delivers for a command (R184). -/
def unitResult (i : Instr) (s : State) : Except ErrorKind Handover :=
  match i with
  | .compress => compressStages s.cap s.mem.ibuf s.work
  | .decompress => decompressStages s.cap s.mem.ibuf s.work
  | .bwtFwd => bwtFwdUnit s.mem.ibuf s.work
  | .bwtInv => bwtInvUnit s.mem.ibuf s.idx s.work
  | .mtfEnc => mtfEncUnit s.mem.ibuf s.work
  | .mtfDec => mtfDecUnit s.mem.ibuf s.work
  | .rleEnc => rleEncUnit s.cap s.mem.ibuf s.work
  | .rleDec => rleDecUnit s.cap s.mem.ibuf s.work
  | .serWr => serWrUnit s.cap s.idx s.mem.ibuf s.work
  | .serRd => serRdUnit s.mem.ibuf s.work

/-- Every command answers a next state: the completion of its result. -/
theorem exec_eq_complete (i : Instr) (s : State) : exec i s = .next (complete (unitResult i s) s) := by
  cases i <;> rfl

/-! ### BWT -/

theorem rot_eq_rotation {S : Bytes} {i : Nat} (h : i < S.length) : rot S i = rotation S i := by
  apply List.ext_getElem
  · simp [rot, rotation]; omega
  · intro k h1 h2
    have hk : k < S.length := by simpa [rot] using h1
    simp only [rot, List.getElem_map, List.getElem_range, rotation]
    by_cases hd : k < S.length - i
    · rw [List.getElem_append_left (by simpa using hd), Nat.mod_eq_of_lt (by omega), List.getElem_drop,
        List.getD_eq_getElem _ _ (by omega)]
    · rw [List.getElem_append_right (by simpa using hd), List.getElem_take, Nat.mod_eq_sub_mod (by omega),
        Nat.mod_eq_of_lt (by omega), List.getD_eq_getElem _ _ (by omega)]
      congr 1
      simp
      omega

theorem perm_perm (S : Bytes) : (perm S).Perm (List.range S.length) := sortBy_perm _ _

@[simp] theorem perm_length (S : Bytes) : (perm S).length = S.length := by simp [perm]

/-- What the forward transform answers on a non-empty input (R95). -/
theorem bwtFwdUnit_ok {S : Bytes} (h : S ≠ []) (w : Working) :
    bwtFwdUnit S w = .ok ⟨(perm S).map (lastOfRot S), some (BitVec.ofNat 32 (positionOf 0 (perm S))),
      { w with stage := .bwt, perm := perm S }⟩ := by
  simp [bwtFwdUnit, h]

theorem bwtFwdUnit_nil (w : Working) : bwtFwdUnit [] w = .error .corruptTransform := rfl

@[simp] theorem rowTable_length (L : Bytes) (j : Nat) : (rowTable L j).length = L.length := by
  induction j with
  | zero => simp [rowTable]
  | succ j ih => simp [rowTable, nextRows, sortRows, ih]

/-- Every row of `T_j` has length `j` (R98). -/
theorem rowTable_row_length (L : Bytes) (j : Nat) : ∀ r, r ∈ rowTable L j → r.length = j := by
  induction j with
  | zero => simp [rowTable]
  | succ j ih =>
    intro r hr
    rw [rowTable, nextRows, sortRows, mem_sortBy] at hr
    obtain ⟨k, hk, rfl⟩ := List.mem_iff_getElem.1 hr
    simp only [List.getElem_zipWith, List.length_cons, Nat.add_right_cancel_iff]
    exact ih _ (List.getElem_mem _)

/-- What the inverse transform answers on an index in range (R99). -/
theorem bwtInvUnit_ok {L : Bytes} {idx : Word} (h : idx.toNat < L.length) (w : Working) :
    bwtInvUnit L idx w = .ok ⟨(rowTable L L.length).getD idx.toNat [], none,
      { w with stage := .bwt, rows := rowTable L L.length }⟩ := by
  simp [bwtInvUnit, Nat.not_le.2 h]

theorem bwtInvUnit_error {L : Bytes} {idx : Word} (h : L.length ≤ idx.toNat) (w : Working) :
    bwtInvUnit L idx w = .error .corruptTransform := by
  simp [bwtInvUnit, h]

/-! ### MTF -/

@[simp] theorem identityTable_length : identityTable.length = 256 := by simp [identityTable]

@[simp] theorem mtfEncLoop_length (sym S : Bytes) : (mtfEncLoop sym S).1.length = S.length := by
  induction S generalizing sym with
  | nil => rfl
  | cons b bs ih => simp [mtfEncLoop, ih]

/-- A rank is one byte, so the range check of R115 never fires (90_conflicts.md C5). -/
theorem rank_check_dead (r : Byte) : ¬ r.toNat > 255 := by
  have := r.isLt
  omega

/-- The decoder's loop answers a sequence as long as its input. -/
theorem mtfDecLoop_ok (sym R : Bytes) : ∃ out, mtfDecLoop sym R = .ok out ∧ out.1.length = R.length := by
  induction R generalizing sym with
  | nil => exact ⟨_, rfl, rfl⟩
  | cons r rs ih =>
    obtain ⟨out, h, hl⟩ := ih (moveFront sym r.toNat)
    refine ⟨(sym.getD r.toNat 0 :: out.1, out.2), ?_, by simp [hl]⟩
    rw [mtfDecLoop, if_neg (rank_check_dead r), h]

/-- What the encoder answers (R113). -/
theorem mtfEncUnit_ok (S : Bytes) (w : Working) : mtfEncUnit S w = .ok ⟨(mtfEncLoop identityTable S).1, none,
    { w with stage := .mtf, sym := (mtfEncLoop identityTable S).2 }⟩ := rfl

/-- What the decoder answers (R114). -/
theorem mtfDecUnit_ok (R : Bytes) (w : Working) : ∃ out, mtfDecLoop identityTable R = .ok out ∧ out.1.length = R.length ∧
    mtfDecUnit R w = .ok ⟨out.1, none, { w with stage := .mtf, sym := out.2 }⟩ := by
  obtain ⟨out, h, hl⟩ := mtfDecLoop_ok identityTable R
  exact ⟨out, h, hl, by simp [mtfDecUnit, h]⟩

/-! ### RLE -/

@[simp] theorem serPairs_length (ps : List RunPair) : (serPairs ps).length = 2 * ps.length := by
  induction ps with
  | nil => rfl
  | cons p ps ih => simp [serPairs, List.flatMap_cons] at *; omega

/-- The pairs a scan emits do not depend on a closed detector's old content (R133). -/
theorem rdetScan_closed (S : Bytes) {d e : RunDetector} (hd : d.held = false) (he : e.held = false) :
    (rdetScan d S).2 = (rdetScan e S).2 := by
  cases S with
  | nil => simp [rdetScan, rdetFlush, hd, he]
  | cons b bs => simp [rdetScan, rdetStep, hd, he]

/-- What the run encoder answers (R135). -/
theorem rleEncUnit_eq (cap : Nat) (S : Bytes) (w : Working) :
    (cap < (serPairs (rdetScan ⟨false, 0, 0⟩ S).2).length → rleEncUnit cap S w = .error .capacityExceeded) ∧
    ((serPairs (rdetScan ⟨false, 0, 0⟩ S).2).length ≤ cap →
      ∃ w', rleEncUnit cap S w = .ok ⟨serPairs (rdetScan ⟨false, 0, 0⟩ S).2, none, w'⟩) := by
  have h : (rdetScan { w.rdet with held := false } S).2 = (rdetScan ⟨false, 0, 0⟩ S).2 := rdetScan_closed S rfl rfl
  constructor
  · intro hc
    simp only [rleEncUnit, h, if_pos hc]
  · intro hc
    refine ⟨{ w with stage := .rle, rdet := (rdetScan { w.rdet with held := false } S).1 }, ?_⟩
    simp only [rleEncUnit, h, if_neg (Nat.not_lt.2 hc)]

theorem expandPairs_length (ps : List RunPair) : (expandPairs ps).length = sumCounts ps := by
  induction ps with
  | nil => rfl
  | cons p ps ih => simp [expandPairs, sumCounts, List.flatMap_cons] at *

/-- What the run decoder answers: every outcome, with the test that leads to it (R139). -/
theorem rleDecUnit_cases (cap : Nat) (B : Bytes) (w : Working) :
    rleDecUnit cap B w = .error .corruptTransform ∨
    (B.length % 2 = 0 ∧ cap < sumCounts (pairsOf B) ∧ rleDecUnit cap B w = .error .capacityExceeded) ∨
    (B.length % 2 = 0 ∧ sumCounts (pairsOf B) ≤ cap ∧
      rleDecUnit cap B w = .ok ⟨expandPairs (pairsOf B), none, { w with stage := .rle }⟩) := by
  unfold rleDecUnit
  split
  · exact .inl rfl
  · split
    · exact .inl rfl
    · split
      · exact .inr (.inl ⟨by omega, by omega, rfl⟩)
      · exact .inr (.inr ⟨by omega, by omega, rfl⟩)

/-! ### Serializer -/

theorem serWrUnit_ok {cap : Nat} {B : Bytes} (h : 4 + B.length ≤ cap) (idx : Word) (w : Working) :
    serWrUnit cap idx B w = .ok ⟨be32 idx ++ B, none, { w with stage := .ser }⟩ := by
  simp [serWrUnit, Nat.not_lt.2 h]

theorem serWrUnit_error {cap : Nat} {B : Bytes} (h : cap < 4 + B.length) (idx : Word) (w : Working) :
    serWrUnit cap idx B w = .error .capacityExceeded := by
  simp [serWrUnit, h]

/-- What the reader answers: every outcome, with the test that leads to it (R154). -/
theorem serRdUnit_cases (X : Bytes) (w : Working) :
    (X.length < 4 ∧ serRdUnit X w = .error .truncatedHeader) ∨
    (∃ b0 b1 b2 b3 B, X = b0 :: b1 :: b2 :: b3 :: B ∧
      ((B.length % 2 = 1 ∧ serRdUnit X w = .error .truncatedPayload) ∨
       (B.length % 2 = 0 ∧ serRdUnit X w = .ok ⟨B, some (unbe32 b0 b1 b2 b3), { w with stage := .ser }⟩))) := by
  match X with
  | [] | [_] | [_, _] | [_, _, _] => exact .inl ⟨by simp, rfl⟩
  | b0 :: b1 :: b2 :: b3 :: B =>
    refine .inr ⟨b0, b1, b2, b3, B, rfl, ?_⟩
    by_cases h : B.length % 2 = 1
    · exact .inl ⟨h, by simp [serRdUnit, h]⟩
    · exact .inr ⟨by omega, by simp [serRdUnit, h]⟩

end Sys2Proof.Machine
end

