-- ==== Sys2Proof/Laws/Turns.lean ====
section
/-! SUPPORT. What a transaction and a step can do, each said once: if it answers a next state, then one of these cases holds. -/

namespace Sys2Proof.Machine

/-- Every next state of a host transaction (R181 to R183, R187, R188). -/
theorem hostStep_cases {t : Transaction} {s u : State} (h : hostStep t s = .next u) :
    (∃ seq, t = .load seq ∧ s.status ≠ .busy ∧ seq.length ≤ s.cap ∧ u = { s with mem := { s.mem with ibuf := seq } }) ∨
    (∃ v, (t = .setIdx v ∨ t = .writeReg 3 v) ∧ s.status ≠ .busy ∧ u = { s with idx := v }) ∨
    (∃ w, (t = .start w ∨ t = .writeReg 0 w) ∧ s.status ≠ .busy ∧ u = startCall w s) ∨
    (t = .readOut ∧ s.status ≠ .busy ∧ u = answer (.sequence s.mem.obuf) s) ∨
    (∃ reg v, t = .readReg reg ∧ s.register reg = some v ∧ (s.status = .busy → readableWhileBusy reg = true) ∧
      u = answer (.register v) s) ∨
    (∃ off b, t = .readObuf off ∧ s.status ≠ .busy ∧ s.mem.obuf[off]? = some b ∧ u = answer (.byte b) s) := by
  have start : ∀ {w}, hostStart w s = .next u → s.status ≠ .busy ∧ u = startCall w s := by
    intro w h
    unfold hostStart at h
    split at h
    · cases h
    · cases h
      exact ⟨by assumption, rfl⟩
  have setIdx : ∀ {v}, hostSetIdx v s = .next u → s.status ≠ .busy ∧ u = { s with idx := v } := by
    intro v h
    unfold hostSetIdx at h
    split at h
    · cases h
    · cases h
      exact ⟨by assumption, rfl⟩
  cases t with
  | load seq =>
    simp only [hostStep, hostLoad] at h
    split at h
    · cases h
    · split at h
      · cases h
      · cases h
        exact .inl ⟨seq, rfl, by assumption, by omega, rfl⟩
  | setIdx v => exact .inr (.inl ⟨v, .inl rfl, setIdx h⟩)
  | start w => exact .inr (.inr (.inl ⟨w, .inl rfl, start h⟩))
  | readOut =>
    simp only [hostStep, hostReadOut] at h
    split at h
    · cases h
    · cases h
      exact .inr (.inr (.inr (.inl ⟨rfl, by assumption, rfl⟩)))
  | readReg reg =>
    simp only [hostStep, hostReadReg] at h
    split at h
    · cases h
    · rename_i v hv
      split at h
      · cases h
      · rename_i hb
        cases h
        refine .inr (.inr (.inr (.inr (.inl ⟨reg, v, rfl, hv, fun hs => ?_, rfl⟩))))
        by_contra hr
        exact hb ⟨hs, by simpa using hr⟩
  | writeReg reg v =>
    simp only [hostStep, hostWriteReg] at h
    split at h
    · exact .inr (.inr (.inl ⟨v, .inr rfl, start h⟩))
    · exact .inr (.inl ⟨v, .inr rfl, setIdx h⟩)
    all_goals cases h
  | readObuf off =>
    simp only [hostStep, hostReadObuf] at h
    split at h
    · cases h
    · split at h
      · rename_i b hb
        cases h
        exact .inr (.inr (.inr (.inr (.inr ⟨off, b, rfl, by assumption, hb, rfl⟩))))
      · cases h
  | readIbuf off => cases h

/-- Every next state of the core's turn (R184, R185, R205). -/
theorem coreTurn_cases {s u : State} (h : coreTurn s = .next u) :
    (s.status ≠ .busy ∧ u = s) ∨
    (s.status = .busy ∧ s.lill = true ∧ u = raiseError .illegalCommand s) ∨
    (s.status = .busy ∧ s.lill = false ∧ ∃ i, decodeLatch s.lcmd = some i ∧ u = complete (unitResult i s) s) := by
  unfold coreTurn at h
  split at h
  · rename_i hb
    split at h
    · cases h
      exact .inr (.inl ⟨hb, by assumption, rfl⟩)
    · rename_i hl
      split at h
      · rename_i i hi
        rw [exec_eq_complete] at h
        cases h
        exact .inr (.inr ⟨hb, by simpa using hl, i, hi, rfl⟩)
      · cases h
  · cases h
    exact .inl ⟨by assumption, rfl⟩

/-- Every next state of a step: whose turn it was, and that agent's step on the schedule that is left. -/
theorem step_cases {s u : State} (h : step s = .next u) :
    (s.agenda = [] ∧ coreTurn s = .next u) ∨
    (∃ rest, s.agenda = .core :: rest ∧ coreTurn { s with agenda := rest } = .next u) ∨
    (∃ t rest, s.agenda = .host t :: rest ∧ hostStep t { s with agenda := rest } = .next u) ∨
    (∃ rest, s.agenda = .reset :: rest ∧ u = resetStep { s with agenda := rest }) ∨
    (∃ rest, s.agenda = .xfer :: rest ∧ s.status = .done ∧
      u = answer (.sequence s.mem.obuf) { s with agenda := .host (.load s.mem.obuf) :: rest }) := by
  unfold step takeTurn at h
  split at h
  · exact .inl ⟨by assumption, h⟩
  · rename_i e rest ha
    cases e with
    | host t => exact .inr (.inr (.inl ⟨t, rest, ha, h⟩))
    | core => exact .inr (.inl ⟨rest, ha, h⟩)
    | reset =>
      cases h
      exact .inr (.inr (.inr (.inl ⟨rest, ha, rfl⟩)))
    | xfer =>
      simp only [eventStep, hostXfer] at h
      split at h
      · rename_i hd
        cases h
        exact .inr (.inr (.inr (.inr ⟨rest, ha, hd, rfl⟩)))
      · cases h

end Sys2Proof.Machine
end

