-- ==== Sys2Proof/Tests/Slice0.lean ====
section
/-! SUPPORT. The model's own tests. Expected results are the spec's examples (95_test_vectors.md; each test names its vector) or hand
calculation from the rule named. Then one witness for the hypotheses of each statement. -/

namespace Sys2Proof.Tests

open Sys2Proof Sys2Proof.Machine

/-- A block of capacity `cap` with an input loaded and IDX set. -/
def loaded (cap idx : Word) (input : Bytes) : State :=
  { State.resetWith cap with mem := ⟨input, []⟩, idx := idx }

/-- One step from the state in which the command word `w` has been started. -/
def runWord (w : Nat) (s : State) : Host.Outcome State Fault Refusal := step (s.withFetchWord 32 w)

/-- The step ended a call successfully, with this output and this IDX, the input consumed. -/
def endsDone (o : Host.Outcome State Fault Refusal) (out : Bytes) (idx : Word) : Bool :=
  match o with
  | .next t => t.status == .done && t.err == .noError && t.mem == ⟨[], out⟩ && t.idx == idx
  | .fault _ => false
  | .refused _ => false

/-- The step ended a call with this error kind, IDX as given, no output and the input consumed. -/
def endsError (o : Host.Outcome State Fault Refusal) (k : ErrorKind) (idx : Word) : Bool :=
  match o with
  | .next t => t.status == .error && t.err == k && t.mem == ⟨[], []⟩ && t.idx == idx
  | .fault _ => false
  | .refused _ => false

/-! ### WellFormed: each check refuses an ill-formed term -/

theorem test_wf_load_too_long : Transaction.wf 6 (.load [1, 2, 3, 4, 5, 6, 7]) = false := by decide
theorem test_wf_read_register_7 : Transaction.wf 6 (.readReg 7) = false := by decide
theorem test_wf_write_status : Transaction.wf 6 (.writeReg 1 0) = false := by decide
theorem test_wf_write_register_7 : Transaction.wf 6 (.writeReg 7 0) = false := by decide
theorem test_wf_read_obuf_at_cap : Transaction.wf 6 (.readObuf 6) = false := by decide
theorem test_wf_read_ibuf : Transaction.wf 6 (.readIbuf 0) = false := by decide
theorem test_wf_agenda : agendaWf 6 [.core, .host (.readIbuf 0)] = false := by decide
theorem test_wf_all_commands : Instr.wf .compress && Instr.wf .serRd && Instr.wf .mtfDec := by decide

/-! ### Decoding: words written bit by bit from 30_encoding.md R70, R71: ZERO(28) UNIT(3) DIR(1) -/

theorem test_decode_compress : decode (0b0000000000000000000000000000#28 ++ 0b000#3 ++ 0b0#1) = .ok .compress := by decide
theorem test_decode_decompress : decode (0b0000000000000000000000000000#28 ++ 0b000#3 ++ 0b1#1) = .ok .decompress := by decide
theorem test_decode_bwtFwd : decode (0b0000000000000000000000000000#28 ++ 0b001#3 ++ 0b0#1) = .ok .bwtFwd := by decide
theorem test_decode_bwtInv : decode (0b0000000000000000000000000000#28 ++ 0b001#3 ++ 0b1#1) = .ok .bwtInv := by decide
theorem test_decode_mtfEnc : decode (0b0000000000000000000000000000#28 ++ 0b010#3 ++ 0b0#1) = .ok .mtfEnc := by decide
theorem test_decode_mtfDec : decode (0b0000000000000000000000000000#28 ++ 0b010#3 ++ 0b1#1) = .ok .mtfDec := by decide
theorem test_decode_rleEnc : decode (0b0000000000000000000000000000#28 ++ 0b011#3 ++ 0b0#1) = .ok .rleEnc := by decide
theorem test_decode_rleDec : decode (0b0000000000000000000000000000#28 ++ 0b011#3 ++ 0b1#1) = .ok .rleDec := by decide
theorem test_decode_serWr : decode (0b0000000000000000000000000000#28 ++ 0b100#3 ++ 0b0#1) = .ok .serWr := by decide
theorem test_decode_serRd : decode (0b0000000000000000000000000000#28 ++ 0b100#3 ++ 0b1#1) = .ok .serRd := by decide

/-- T-HOST-2, T-HOST-5: UNIT 5 and 7 are not assigned. -/
theorem test_decode_unit_not_assigned :
    decode 0x0000000A#32 = .error .unitNotAssigned ∧ decode 0x0000000F#32 = .error .unitNotAssigned := by decide
/-- T-HOST-3, T-HOST-4: a bit set above the low four is no command. -/
theorem test_decode_zero_field :
    decode 0x00000010#32 = .error .zeroFieldNotZero ∧ decode 0x80000002#32 = .error .zeroFieldNotZero := by decide
theorem test_table_word : decodeTableWord 32 9 = some .serRd ∧ decodeTableWord 32 10 = none := by decide

/-! ### BWT (vectors of section 2.1) -/

/-- T-BWT-2: duplicate rotations. -/
theorem test_bwtFwd_abab : endsDone (runWord 2 (loaded 4096 7 [97, 98, 97, 98])) [98, 98, 97, 97] 0 := by decide
/-- T-BWT-9: the order is unsigned. -/
theorem test_bwtFwd_unsigned : endsDone (runWord 2 (loaded 4096 7 [255, 0, 255])) [255, 255, 0] 1 := by decide
/-- T-BWT-22: not a forward image, still a value. -/
theorem test_bwtInv_non_image : endsDone (runWord 3 (loaded 4096 0 [97, 98])) [97, 97] 0 := by decide
/-- T-BWT-18: the index at the length. -/
theorem test_bwtInv_index : endsError (runWord 3 (loaded 4096 2 [98, 97])) .corruptTransform 2 := by decide

/-! ### MTF (section 2.2) -/

/-- T-MTF-3. -/
theorem test_mtfEnc_255 : endsDone (runWord 4 (loaded 4096 5 [255, 255, 0, 255])) [255, 0, 1, 1] 5 := by decide +kernel
/-- T-MTF-13. -/
theorem test_mtfDec_ones : endsDone (runWord 5 (loaded 4096 5 [1, 1, 1, 1])) [1, 0, 1, 0] 5 := by decide +kernel
/-- T-MTF-12. -/
theorem test_mtfDec_255 : endsDone (runWord 5 (loaded 4096 5 [255, 255, 255])) [255, 254, 253] 5 := by decide +kernel

/-! ### RLE (section 2.3) -/

/-- T-RLE-7: a run of 256 is split, full pair first. -/
theorem test_rleEnc_256 : endsDone (runWord 6 (loaded 4096 5 (List.replicate 256 7))) [255, 7, 1, 7] 5 := by decide +kernel
/-- T-RLE-13: eight bytes do not fit six. -/
theorem test_rleEnc_capacity : endsError (runWord 6 (loaded 6 5 [1, 2, 3, 4])) .capacityExceeded 5 := by decide
/-- T-RLE-17: a RunList no encoder makes. -/
theorem test_rleDec_non_canonical : endsDone (runWord 7 (loaded 4096 5 [1, 5, 1, 5])) [5, 5] 5 := by decide
/-- T-RLE-23: the zero count is found before the capacity is. -/
theorem test_rleDec_order : endsError (runWord 7 (loaded 300 5 [0, 1, 200, 2, 200, 3])) .corruptTransform 5 := by decide

/-! ### Serializer (section 2.4) -/

/-- T-SER-3: big-endian header, odd payload not validated. -/
theorem test_serWr_big_endian : endsDone (runWord 8 (loaded 4096 0x01020304 [9])) [1, 2, 3, 4, 9] 0x01020304 := by decide
/-- T-SER-5. -/
theorem test_serWr_capacity : endsError (runWord 8 (loaded 6 0 [1, 1, 1])) .capacityExceeded 0 := by decide
/-- T-SER-8: the index is delivered, a zero count not checked. -/
theorem test_serRd_index : endsDone (runWord 9 (loaded 4096 5 [1, 2, 3, 4, 0, 0])) [0, 0] 0x01020304 := by decide
/-- T-SER-9: three bytes, IDX unchanged. -/
theorem test_serRd_header : endsError (runWord 9 (loaded 4096 5 [1, 2, 3])) .truncatedHeader 5 := by decide

/-! ### Pipeline (section 2.5) -/

/-- T-PIPE-6, IDX left alone as in T-HOST-7. -/
theorem test_compress_ba : endsDone (runWord 0 (loaded 4096 9 [98, 97])) [0, 0, 0, 1, 2, 98] 9 := by decide +kernel
/-- T-PIPE-21: the blob would be 10 bytes. -/
theorem test_compress_capacity : endsError (runWord 0 (loaded 6 9 [1, 2, 3])) .capacityExceeded 9 := by decide +kernel
/-- T-PIPE-35: well formed, not an output of COMPRESS. -/
theorem test_decompress_non_image : endsDone (runWord 1 (loaded 4096 9 [0, 0, 0, 0, 3, 65])) [63, 65, 63] 9 := by decide +kernel
/-- T-PIPE-31: odd region, zero count and index too large report the first in order. -/
theorem test_decompress_order : endsError (runWord 1 (loaded 4096 9 [0, 0, 0, 9, 0, 5, 1])) .truncatedPayload 9 := by decide

/-! ### Host interface (section 2.6) -/

/-- R82 with the ASCII codes of `A` and `b` (65 and 98). -/
theorem test_text_line : lineEvents 0 (.loadText ['A', 'b']) = [.host (.load [65, 98])] := by decide

/-- T-HOST-2: an illegal word's call fails, the input consumed, the word kept in CMD. -/
theorem test_illegal_word : endsError (runWord 10 (loaded 4096 5 [1, 2, 3])) .illegalCommand 5 := by decide
/-- T-HOST-1: the registers after reset, for CAP = 4096. -/
theorem test_reset_registers :
    [0, 1, 2, 3, 4, 5, 6, 7].map (State.resetWith 4096).register
      = [some 0, some 0, some 0, some 0, some 0, some 0, some 4096, none] := by decide
/-- T-HOST-10: ERROR and its kind read back as 3 and 6, reserved bits 0 (R27, R28). -/
theorem test_status_registers :
    (raiseError .capacityExceeded (loaded 6 0 [])).statusWord = 3 ∧ (raiseError .capacityExceeded (loaded 6 0 [])).errWord = 6 := by
  decide
/-- T-HOST-9: a load of CAP + 1 bytes. -/
theorem test_load_refused :
    (match hostStep (.load [1, 2, 3, 4, 5, 6, 7]) (loaded 6 0 []) with | .refused r => r == .loadTooLong | _ => false) = true := by
  decide

/-! ### Witnesses: for each statement with hypotheses, a state and operands that meet them all, clause by clause -/

/-- A running call. -/
def running : State := { startCall 4 (loaded 6 0 [1, 2, 3, 4, 5, 6]) with agenda := [.core] }

/-- A finished call, CAP 6, with six bytes of output. -/
def finished : State := { loaded 6 0 [] with mem := ⟨[], [1, 2, 3, 4, 5, 6]⟩, status := .done }

theorem witness_LoadSetsInput :
    running.status = .busy ∧ finished.cap < [1, 2, 3, 4, 5, 6, 7].length ∧
    finished.status ≠ .busy ∧ [1, 2, 3, 4, 5, 6].length ≤ finished.cap := by decide

theorem witness_StepTakesTheNextTurn :
    finished.agenda = [] ∧ running.agenda = .core :: [] ∧
    ({ finished with agenda := [.host .readOut] } : State).agenda = .host .readOut :: [] ∧
    ({ finished with agenda := [.xfer] } : State).agenda = .xfer :: [] ∧
    ({ finished with agenda := [.xfer] } : State).status = .done := by decide

theorem witness_LoadIsByteWrites : finished.status ≠ .busy ∧ ([1, 2, 3, 4, 5, 6] : Bytes).length ≤ finished.cap := by decide

/-- R54 by hand: with CAP = 6 an empty IBUF takes a byte at offset 2, ILEN stays 0, and the byte is read once ILEN covers it. -/
theorem test_write_beyond_length :
    ((Memory.spaces 6 ⟨[], [9]⟩).write .ibuf 2 [7]).map (fun σ => (σ.ibuf.len, (σ.setLen .ibuf 3).read .ibuf 2 1)) =
      some (0, some [7]) := by decide

theorem witness_WriteThenReadBuffer :
    (Memory.spaces 6 ⟨[1, 2, 3, 4, 5], [9]⟩).wf 6 = true ∧
    (Memory.spaces 6 ⟨[1, 2, 3, 4, 5], [9]⟩).write .ibuf 3 [7, 8] = some (Memory.spaces 6 ⟨[1, 2, 3, 7, 8], [9]⟩) ∧
    3 + [7, 8].length ≤ ((Memory.spaces 6 ⟨[1, 2, 3, 4, 5], [9]⟩).get .ibuf).len ∧ (Space.obuf ≠ Space.ibuf) := by decide

theorem witness_SetIdxSetsIndex : running.status = .busy ∧ finished.status ≠ .busy := by decide
theorem witness_StartLatchesCommand : running.status = .busy ∧ finished.status ≠ .busy := by decide
theorem witness_StartForgetsLastOutcome : finished.status ≠ .busy ∧ CallState.error ≠ .busy := by decide
theorem witness_ReadOutReturnsOutput : finished.status ≠ .busy ∧ finished.mem.obuf[5]? = some 6 := by decide

theorem witness_ReadRegReturnsRegister :
    finished.status ≠ .busy ∧ running.status = .busy ∧
    (5 = 5 ∧ finished.olen = finished.olen) ∧ (6 = 6 ∧ running.capr = running.capr) := by decide

theorem witness_StatusAndErrRegisters :
    (State.resetWith 6).status = .idle ∧ running.status = .busy ∧ finished.status = .done ∧
    (raiseError .encodingOverflow running).status = .error ∧ (raiseError .encodingOverflow running).err = .encodingOverflow := by
  decide

theorem witness_RefusedTransactions :
    running.status = .busy ∧ finished.cap < [1, 2, 3, 4, 5, 6, 7].length ∧ 6 < 7 ∧ finished.mem.obuf.length ≤ 6 := by decide

theorem witness_IllFormedTransactionsRefused :
    finished.mem.obuf.length ≤ finished.cap ∧ Transaction.wf finished.cap (.readObuf 6) = false := by decide

theorem witness_RunningCallIsUndisturbed :
    running.status = .busy ∧ hostStep (.readReg 1) running = .next (answer (.register 1) running) := by
  exact ⟨rfl, rfl⟩

theorem witness_ReadsHaveNoSideEffect :
    hostStep .readOut finished = .next (answer (.sequence [1, 2, 3, 4, 5, 6]) finished) ∧
    hostStep (.readReg 5) finished = .next (answer (.register 6) finished) ∧
    hostStep (.readObuf 5) finished = .next (answer (.byte 6) finished) := by
  exact ⟨rfl, rfl, rfl⟩

theorem witness_ResetMakesIdle : ({ running with agenda := [.reset, .core] } : State).agenda = .reset :: [.core] := by decide

theorem witness_StepRunsLatchedCommand :
    running.status = .busy ∧ running.lill = false ∧ decodeLatch running.lcmd = some .mtfEnc ∧ running.agenda = .core :: [] := by decide

theorem witness_StepRunsLatchedCommand_idle_schedule :
    ({ running with agenda := [] } : State).agenda = [] ∧ ({ running with agenda := [] } : State).status = .busy ∧
    ({ running with agenda := [] } : State).lill = false ∧ decodeLatch ({ running with agenda := [] } : State).lcmd = some .mtfEnc := by
  decide

theorem witness_StartThenCoreRunsCommand :
    ({ finished with agenda := [.host (.start 9), .core] } : State).status ≠ .busy ∧ decode 9 = .ok .serRd ∧
    ({ finished with agenda := [.host (.start 9), .core] } : State).agenda = .host (.start 9) :: .core :: [] := by decide

theorem witness_IllegalWordFailsTheCall :
    finished.status ≠ .busy ∧ (∀ i, (10 : Word) ≠ encode i) := by
  refine ⟨by decide, fun i => ?_⟩
  cases i <;> decide

theorem witness_NoCrossCallLeakage :
    (loaded 6 3 [1, 2]).mem.ibuf = ({ loaded 6 3 [1, 2] with status := .error, err := .corruptTransform } : State).mem.ibuf ∧
    (loaded 6 3 [1, 2]).idx = ({ loaded 6 3 [1, 2] with status := .error, err := .corruptTransform } : State).idx ∧
    (loaded 6 3 [1, 2]).capr = ({ loaded 6 3 [1, 2] with status := .error, err := .corruptTransform } : State).capr := by decide

theorem witness_NoCrossCallLeakage_running_call :
    running.status = .busy ∧ ({ running with replies := [.register 1] } : State).lill = running.lill ∧
    coreTurn running = .next (complete (unitResult .mtfEnc running) running) := ⟨rfl, rfl, rfl⟩

theorem witness_IdxIsReadByTwoCommandsOnly : readsIdx .bwtFwd = false ∧ writesIdx .bwtFwd = true := by decide

theorem witness_ErrorKindMatrix : ErrorKind.capacityExceeded ∈ possibleKinds .decompress := by decide

/-! #### The relations on concrete sequences -/

theorem canonicalPerm_ba : CanonicalPerm [98, 97] [1, 0] where
  offsets := by decide
  ordered := by
    intro k hk
    obtain rfl : k = 0 := by simp at hk; omega
    exact .inl ⟨0, by decide, fun i hi => absurd hi (by omega), by decide⟩

theorem isBwt_ba : IsBwt [98, 97] [98, 97] 1 := ⟨[1, 0], canonicalPerm_ba, by decide, by decide, by decide⟩

theorem isRowTable_ba : IsRowTable [98, 97] 2 [[97, 98], [98, 97]] := by
  refine ⟨[[97], [98]], ⟨List.replicate 2 [], rfl, by decide, ?_⟩, by decide, ?_⟩ <;>
  · intro k hk
    obtain rfl : k = 0 := by simp at hk; omega
    rintro ⟨j, hj, heq, hlt⟩
    rcases j with _ | _ | j
    · exact absurd hlt (by decide)
    · exact absurd (heq 0 (by omega)) (by decide)
    · simp at hj

/-- The ranks of `[98, 97]` are `[98, 98]`: 97 has moved back one place (R112). -/
theorem isMtf_ba : IsMtf [98, 97] [98, 98] where
  length := rfl
  place := by
    intro i hi
    match i, hi with
    | 0, _ => decide +kernel
    | 1, _ => decide +kernel

theorem maximalRuns_bb : MaximalRuns [98, 98] [(2, 98)] where
  whole := by decide
  nonempty := by decide
  maximal := fun k hk => absurd hk (by simp)

theorem isRle_bb : IsRle [98, 98] [2, 98] := ⟨[(2, 98)], maximalRuns_bb, by decide⟩

theorem legal_2_98 : LegalRunList [2, 98] := by
  refine ⟨by decide, ?_⟩
  rintro ⟨k, hk, h0⟩
  obtain rfl : k = 0 := by simp at hk; omega
  exact absurd h0 (by decide)

theorem hasZeroCount_0_5 : HasZeroCount [0, 5] := ⟨0, by decide, by decide⟩

theorem witness_BwtFwdResult :
    (loaded 6 0 []).mem.ibuf = [] ∧ (loaded 6 0 [98, 97]).mem.ibuf ≠ [] ∧ IsBwt (loaded 6 0 [98, 97]).mem.ibuf [98, 97] 1 ∧
    (loaded 6 0 [98, 97]).mem.ibuf.length ≤ (loaded 6 0 [98, 97]).cap := ⟨rfl, by decide, isBwt_ba, by decide⟩

theorem witness_BwtInvResult :
    (loaded 6 2 [98, 97]).mem.ibuf.length ≤ (loaded 6 2 [98, 97]).idx.toNat ∧
    (loaded 6 1 [98, 97]).idx.toNat < (loaded 6 1 [98, 97]).mem.ibuf.length ∧
    IsRowTable (loaded 6 1 [98, 97]).mem.ibuf (loaded 6 1 [98, 97]).mem.ibuf.length [[97, 98], [98, 97]] :=
  ⟨by decide, by decide, isRowTable_ba⟩

theorem witness_RleEncResult :
    IsRle (loaded 6 0 [98, 98]).mem.ibuf [2, 98] ∧ ([2, 98] : Bytes).length ≤ (loaded 6 0 [98, 98]).cap ∧
    IsRle (loaded 1 0 [98, 98]).mem.ibuf [2, 98] ∧ (loaded 1 0 [98, 98]).cap < ([2, 98] : Bytes).length :=
  ⟨isRle_bb, by decide, isRle_bb, by decide⟩

theorem witness_RleDecResult :
    (loaded 6 0 [2, 98, 1]).mem.ibuf.length % 2 = 1 ∧
    ((loaded 6 0 [0, 5]).mem.ibuf.length % 2 = 0 ∧ HasZeroCount (loaded 6 0 [0, 5]).mem.ibuf) ∧
    (LegalRunList (loaded 1 0 [2, 98]).mem.ibuf ∧ (loaded 1 0 [2, 98]).cap < countTotal (loaded 1 0 [2, 98]).mem.ibuf) ∧
    (LegalRunList (loaded 2 0 [2, 98]).mem.ibuf ∧ countTotal (loaded 2 0 [2, 98]).mem.ibuf ≤ (loaded 2 0 [2, 98]).cap) :=
  ⟨by decide, ⟨by decide, hasZeroCount_0_5⟩, ⟨legal_2_98, by decide⟩, ⟨legal_2_98, by decide⟩⟩

theorem witness_SerWrResult :
    (loaded 6 0 [1, 1]).mem.ibuf.length + 4 ≤ (loaded 6 0 [1, 1]).cap ∧
    (loaded 6 0 [1, 1, 1]).cap < (loaded 6 0 [1, 1, 1]).mem.ibuf.length + 4 := by decide

theorem witness_SerRdResult :
    (loaded 6 0 [1, 2, 3]).mem.ibuf.length < 4 ∧
    (4 ≤ (loaded 6 0 [1, 2, 3, 4, 5]).mem.ibuf.length ∧ ((loaded 6 0 [1, 2, 3, 4, 5]).mem.ibuf.length - 4) % 2 = 1) ∧
    (4 ≤ (loaded 6 0 [1, 2, 3, 4]).mem.ibuf.length ∧ ((loaded 6 0 [1, 2, 3, 4]).mem.ibuf.length - 4) % 2 = 0) := by decide

theorem witness_CompressResult :
    (loaded 6 0 []).mem.ibuf = [] ∧ (loaded 6 0 [98, 97]).mem.ibuf ≠ [] ∧ IsBwt (loaded 6 0 [98, 97]).mem.ibuf [98, 97] 1 ∧
    IsMtf [98, 97] [98, 98] ∧ IsRle [98, 98] [2, 98] ∧ 4 + ([2, 98] : Bytes).length ≤ (loaded 6 0 [98, 97]).cap ∧
    (loaded 5 0 [98, 97]).cap < 4 + ([2, 98] : Bytes).length ∧ (loaded 5 0 [98, 97]).mem.ibuf = [98, 97] :=
  ⟨rfl, by decide, isBwt_ba, isMtf_ba, isRle_bb, by decide, by decide, rfl⟩

theorem witness_DecompressResult :
    (loaded 6 0 [0, 0, 0]).mem.ibuf.length < 4 ∧
    (([0, 0, 0, 0, 1] : Bytes).drop 4).length % 2 = 1 ∧
    HasZeroCount (([0, 0, 0, 0, 0, 5] : Bytes).drop 4) ∧
    (LegalRunList (([0, 0, 0, 0, 2, 98] : Bytes).drop 4) ∧ (loaded 1 0 []).cap < countTotal (([0, 0, 0, 0, 2, 98] : Bytes).drop 4)) ∧
    (LegalRunList (([0, 0, 0, 2, 2, 98] : Bytes).drop 4) ∧
      countTotal (([0, 0, 0, 2, 2, 98] : Bytes).drop 4) ≤ headerIndex [0, 0, 0, 2, 2, 98]) ∧
    (LegalRunList (([0, 0, 0, 1, 2, 98] : Bytes).drop 4) ∧
      headerIndex [0, 0, 0, 1, 2, 98] < countTotal (([0, 0, 0, 1, 2, 98] : Bytes).drop 4) ∧
      countTotal (([0, 0, 0, 1, 2, 98] : Bytes).drop 4) ≤ (loaded 6 0 []).cap ∧
      IsMtf [98, 97] (expansion (([0, 0, 0, 1, 2, 98] : Bytes).drop 4)) ∧
      IsRowTable [98, 97] ([98, 97] : Bytes).length [[97, 98], [98, 97]]) :=
  ⟨by decide, by decide, hasZeroCount_0_5, ⟨legal_2_98, by decide⟩, ⟨legal_2_98, by decide⟩,
    ⟨legal_2_98, by decide, by decide, isMtf_ba, isRowTable_ba⟩⟩

theorem witness_CanonicalPermExistsUnique : CanonicalPerm [98, 97] [1, 0] := canonicalPerm_ba
theorem witness_RowTableIgnoresTies : IsRowTable [98, 97] 2 [[97, 98], [98, 97]] := isRowTable_ba
theorem witness_MtfIsBijection : IsMtf [98, 97] [98, 98] := isMtf_ba
theorem witness_MaximalRunsUnique : MaximalRuns [98, 98] [(2, 98)] := maximalRuns_bb
theorem witness_RunDetectorEmitsRuns : (⟨false, 9, 255⟩ : RunDetector).held = false ∧ MaximalRuns [98, 98] [(2, 98)] :=
  ⟨rfl, maximalRuns_bb⟩

/-- The hypotheses of `BwtBijection`, `BwtRearranges`, `CompressDecompressRoundTrip` and `SmallInputsCompress`. -/
theorem witness_SmallInputsCompress :
    (loaded 8 0 [98, 97]).mem.ibuf ≠ [] ∧ (loaded 8 0 [98, 97]).mem.ibuf.length ≤ (loaded 8 0 [98, 97]).cap ∧
    2 * (loaded 8 0 [98, 97]).mem.ibuf.length + 4 ≤ (loaded 8 0 [98, 97]).cap := by decide

/-- The input of `BwtBijection`'s second half. -/
theorem witness_BwtBijection :
    endsDone (exec .bwtFwd (loaded 8 0 [98, 97])) (loaded 8 1 [98, 97]).mem.ibuf (loaded 8 1 [98, 97]).idx = true := by decide

theorem witness_WrongIndexGivesRotation :
    CanonicalPerm [98, 97] [1, 0] ∧ (loaded 8 0 [98, 97]).mem.ibuf = [1, 0].map (fun i => (rotation [98, 97] i).getLastD 0) ∧
    (loaded 8 0 [98, 97]).idx.toNat < ([98, 97] : Bytes).length := ⟨canonicalPerm_ba, by decide, by decide⟩

theorem witness_PrimaryIndexIsFirstEqualRow : CanonicalPerm [98, 97] [1, 0] ∧ IsBwt [98, 97] [98, 97] 1 := ⟨canonicalPerm_ba, isBwt_ba⟩

theorem witness_MtfRoundTrips :
    endsDone (exec .mtfEnc (loaded 8 0 [98, 97])) (loaded 8 0 [98, 98]).mem.ibuf 0 = true ∧
    endsDone (exec .mtfDec (loaded 8 0 [98, 98])) (loaded 8 0 [98, 97]).mem.ibuf 0 = true := by decide +kernel

theorem witness_RleRoundTrip :
    (loaded 6 0 [98, 98]).mem.ibuf.length ≤ (loaded 6 0 [98, 98]).cap ∧
    endsDone (exec .rleEnc (loaded 6 0 [98, 98])) (loaded 6 0 [2, 98]).mem.ibuf 0 = true := by decide

theorem witness_RleLengthBounds :
    endsDone (exec .rleEnc (loaded 6 0 [98, 98])) [2, 98] 0 = true ∧ endsDone (exec .rleDec (loaded 6 0 [2, 98])) [98, 98] 0 = true := by
  decide

theorem witness_SerializerRoundTrips :
    (loaded 6 1 [2, 98]).mem.ibuf.length % 2 = 0 ∧ (loaded 6 1 [2, 98]).mem.ibuf.length + 4 ≤ (loaded 6 1 [2, 98]).cap ∧
    endsDone (exec .serWr (loaded 6 1 [2, 98])) (loaded 6 0 [0, 0, 0, 1, 2, 98]).mem.ibuf 1 = true ∧
    4 ≤ (loaded 6 0 [0, 0, 0, 1, 2, 98]).mem.ibuf.length ∧
    endsDone (exec .serRd (loaded 6 0 [0, 0, 0, 1, 2, 98])) (loaded 6 1 [2, 98]).mem.ibuf 1 = true := by decide

theorem witness_CompressDecompressRoundTrip :
    (loaded 6 0 [98, 97]).mem.ibuf ≠ [] ∧ (loaded 6 0 [98, 97]).mem.ibuf.length ≤ (loaded 6 0 [98, 97]).cap ∧
    endsDone (exec .compress (loaded 6 0 [98, 97])) (loaded 6 0 [0, 0, 0, 1, 2, 98]).mem.ibuf 0 = true := by decide +kernel

theorem witness_RoundTripScriptReturnsInput :
    (State.resetWith 8).status ≠ .busy ∧ ([98, 97] : Bytes) ≠ [] ∧ 2 * ([98, 97] : Bytes).length + 4 ≤ (State.resetWith 8).cap := by
  decide

/-- A finished and a failed call of `CompressEqualsStages`. -/
theorem witness_CompressEqualsStages :
    (State.resetWith 6).status ≠ .busy ∧ ([98, 97] : Bytes).length ≤ (State.resetWith 6).cap ∧
    endsDone (exec .compress (loaded 6 0 [98, 97])) [0, 0, 0, 1, 2, 98] 0 = true ∧
    endsError (exec .compress (loaded 6 0 [1, 2, 3])) .capacityExceeded 0 = true := by decide +kernel

/-- Every conjunct of the invariant, on a running call of any capacity within R7's bounds. -/
theorem running_inv : running.Inv where
  cap_min := by decide
  ibuf_fits := by decide
  obuf_fits := by decide
  xbuf_fits := by decide
  sym_size := by decide +kernel
  stage_rest := by decide
  kind_iff_error := by decide
  no_encoding_overflow := by decide
  output_only_done := by decide
  latched := by decide
  idle_cmd := by decide

/-- The same on a state in which no call runs. -/
theorem idle_inv : (State.resetWith 6).Inv where
  cap_min := by decide
  ibuf_fits := by decide
  obuf_fits := by decide
  xbuf_fits := by decide
  sym_size := by decide +kernel
  stage_rest := by decide
  kind_iff_error := by decide
  no_encoding_overflow := by decide
  output_only_done := by decide
  latched := by decide
  idle_cmd := by decide

theorem witness_ResetSatisfiesInvariant : 6 ≤ (6 : Word).toNat := by decide
theorem witness_StepKeepsInvariant : running.Inv ∧ step running = .next (complete (unitResult .mtfEnc { running with agenda := [] }) { running with agenda := [] }) :=
  ⟨running_inv, rfl⟩

/-- The three turns, each in a state of the invariant: the core's at the head, the core's on an empty schedule, RESET's; the second
while BUSY and while not. -/
theorem witness_CoreAndResetNeverStop :
    (running.Inv ∧ running.agenda = .core :: []) ∧
    (({ running with agenda := [] } : State).Inv ∧ ({ running with agenda := [] } : State).status = .busy) ∧
    ((State.resetWith 6).Inv ∧ (State.resetWith 6).agenda = [] ∧ (State.resetWith 6).status ≠ .busy) ∧
    (({ running with agenda := [.reset] } : State).Inv ∧ ({ running with agenda := [.reset] } : State).agenda = .reset :: []) :=
  ⟨⟨running_inv, rfl⟩, ⟨{ running_inv with }, rfl⟩, ⟨idle_inv, rfl, by decide⟩, ⟨{ running_inv with }, rfl⟩⟩

theorem witness_StartedCallCompletes :
    ({ running with agenda := [1, 6].map (fun r => Event.host (.readReg r)) } : State).Inv ∧
    ({ running with agenda := [1, 6].map (fun r => Event.host (.readReg r)) } : State).status = .busy :=
  ⟨{ running_inv with }, rfl⟩

theorem witness_OnlyTheseStepsWrite :
    step { finished with agenda := [.host (.load [1])] } = .next { finished with mem := ⟨[1], [1, 2, 3, 4, 5, 6]⟩ } := rfl

end Sys2Proof.Tests
end

/-! ## The state (10_state.md): START, reset, and what the result of a call depends on -/

namespace Sys2Proof.Machine

/-! ### START and the core's turn, one equation for each way they answer -/

/-- An accepted START is `startCall` (R183). -/
theorem hostStep_start_of_not_busy {s : State} (w : Word) (h : s.status ≠ .busy) :
    hostStep (.start w) s = .next (startCall w s) :=
  if_neg h

/-- `startCall` writes STATE and KIND without reading them (R183). -/
theorem startCall_status_err (w : Word) (s : State) (st : CallState) (k : ErrorKind) :
    startCall w { s with status := st, err := k } = startCall w s := rfl

/-- A running call with LILL set completes with IllegalCommand (R205). -/
theorem coreTurn_of_illegal {s : State} (hb : s.status = .busy) (hl : s.lill = true) :
    coreTurn s = .next (raiseError .illegalCommand s) := by
  rw [coreTurn, if_pos hb, if_pos hl]

/-- A running call of a legal word completes the latched command (R184). -/
theorem coreTurn_of_command {s : State} {i : Instr} (hb : s.status = .busy) (hl : s.lill = false)
    (hi : decodeLatch s.lcmd = some i) : coreTurn s = exec i s := by
  simp [coreTurn, hb, hl, hi]

/-! ### What a unit hands over does not depend on the hidden storage it finds

A stage passes on its sequence in XBUF and its index in PIDX, and a stage that delivers no index leaves the PIDX it found
(R35). So a result is compared on the sequence, the index, and, where `samePidx` is known, the PIDX the next stage finds. -/

/-- Two results with the same error, or with handovers that agree on all but the storage a later stage does not read. -/
inductive SameHandover (samePidx : Prop) : Except ErrorKind Handover → Except ErrorKind Handover → Prop
  | error (k : ErrorKind) : SameHandover samePidx (.error k) (.error k)
  | ok {h g : Handover} (seq : h.seq = g.seq) (idx : h.idx = g.idx) (pidx : samePidx → h.latch.pidx = g.latch.pidx) :
    SameHandover samePidx (.ok h) (.ok g)

theorem SameHandover.mono {P Q : Prop} {r r' : Except ErrorKind Handover} (hr : SameHandover P r r') (hPQ : Q → P) :
    SameHandover Q r r' := by
  cases hr with
  | error k => exact .error k
  | ok seq idx pidx => exact .ok seq idx fun hQ => pidx (hPQ hQ)

/-- Stages that agree on storages with the same XBUF and PIDX keep two results alike (R14, R166). -/
theorem SameHandover.thenStage {r r' : Except ErrorKind Handover} {f : Working → Except ErrorKind Handover}
    (hr : SameHandover True r r')
    (hf : ∀ w v : Working, w.xbuf = v.xbuf → w.pidx = v.pidx → SameHandover True (f w) (f v)) :
    SameHandover True (thenStage r f) (thenStage r' f) := by
  cases hr with
  | error k => exact .error k
  | ok seq _ pidx => exact hf _ _ seq (pidx trivial)

section Units

variable (w v : Working)

theorem bwtFwdUnit_sameHandover (S : Bytes) : SameHandover True (bwtFwdUnit S w) (bwtFwdUnit S v) := by
  by_cases hS : S = []
  · subst hS
    exact .error _
  · rw [bwtFwdUnit_ok hS, bwtFwdUnit_ok hS]
    exact .ok rfl rfl fun _ => rfl

theorem bwtInvUnit_sameHandover (L : Bytes) (idx : Word) :
    SameHandover (w.pidx = v.pidx) (bwtInvUnit L idx w) (bwtInvUnit L idx v) := by
  rcases Nat.lt_or_ge idx.toNat L.length with h | h
  · rw [bwtInvUnit_ok h, bwtInvUnit_ok h]
    exact .ok rfl rfl id
  · rw [bwtInvUnit_error h, bwtInvUnit_error h]
    exact .error _

theorem mtfEncUnit_sameHandover (S : Bytes) : SameHandover (w.pidx = v.pidx) (mtfEncUnit S w) (mtfEncUnit S v) :=
  .ok rfl rfl id

theorem mtfDecUnit_sameHandover (R : Bytes) : SameHandover (w.pidx = v.pidx) (mtfDecUnit R w) (mtfDecUnit R v) := by
  obtain ⟨out, hout, -, hw⟩ := mtfDecUnit_ok R w
  obtain ⟨out', hout', -, hv⟩ := mtfDecUnit_ok R v
  cases hout.symm.trans hout'
  rw [hw, hv]
  exact .ok rfl rfl id

/-- The detector is closed before the scan, so what RDET held is not seen (R133). -/
theorem rleEncUnit_sameHandover (cap : Nat) (S : Bytes) :
    SameHandover (w.pidx = v.pidx) (rleEncUnit cap S w) (rleEncUnit cap S v) := by
  have hpairs : (rdetScan { w.rdet with held := false } S).2 = (rdetScan { v.rdet with held := false } S).2 :=
    rdetScan_closed S rfl rfl
  simp only [rleEncUnit, hpairs]
  split
  · exact .error _
  · exact .ok rfl rfl id

theorem rleDecUnit_sameHandover (cap : Nat) (B : Bytes) :
    SameHandover (w.pidx = v.pidx) (rleDecUnit cap B w) (rleDecUnit cap B v) := by
  unfold rleDecUnit
  split
  · exact .error _
  · split
    · exact .error _
    · split
      · exact .error _
      · exact .ok rfl rfl id

theorem serWrUnit_sameHandover (cap : Nat) (idx : Word) (B : Bytes) :
    SameHandover (w.pidx = v.pidx) (serWrUnit cap idx B w) (serWrUnit cap idx B v) := by
  rcases Nat.lt_or_ge cap (4 + B.length) with h | h
  · rw [serWrUnit_error h, serWrUnit_error h]
    exact .error _
  · rw [serWrUnit_ok h, serWrUnit_ok h]
    exact .ok rfl rfl id

theorem serRdUnit_sameHandover (X : Bytes) : SameHandover True (serRdUnit X w) (serRdUnit X v) := by
  unfold serRdUnit
  split
  · split
    · exact .error _
    · exact .ok rfl rfl fun _ => rfl
  · exact .error _

/-- The first stage delivers the index, so from there on PIDX is the same and each stage finds the same operands (R161). -/
theorem compressStages_sameHandover (cap : Nat) (S : Bytes) :
    SameHandover True (compressStages cap S w) (compressStages cap S v) := by
  unfold compressStages
  refine (((bwtFwdUnit_sameHandover w v S).thenStage ?mtf).thenStage ?rle).thenStage ?ser <;> intro w v hx hp <;> rw [hx]
  case mtf => exact (mtfEncUnit_sameHandover w v _).mono fun _ => hp
  case rle => exact (rleEncUnit_sameHandover w v _ _).mono fun _ => hp
  case ser =>
    rw [hp]
    exact (serWrUnit_sameHandover w v _ _ _).mono fun _ => hp

/-- As in COMPRESS: SER_RD delivers the index first (R164). -/
theorem decompressStages_sameHandover (cap : Nat) (X : Bytes) :
    SameHandover True (decompressStages cap X w) (decompressStages cap X v) := by
  unfold decompressStages
  refine (((serRdUnit_sameHandover w v X).thenStage ?rle).thenStage ?mtf).thenStage ?bwt <;> intro w v hx hp <;> rw [hx]
  case rle => exact (rleDecUnit_sameHandover w v _ _).mono fun _ => hp
  case mtf => exact (mtfDecUnit_sameHandover w v _).mono fun _ => hp
  case bwt =>
    rw [hp]
    exact (bwtInvUnit_sameHandover w v _ _).mono fun _ => hp

end Units

/-! ### The result of a call (R41) -/

section SameOperands

variable {s u : State}

/-- A command's result is a function of IBUF, IDX and CAP, up to the storage left behind. -/
theorem unitResult_sameHandover (i : Instr) (hibuf : s.mem.ibuf = u.mem.ibuf) (hidx : s.idx = u.idx)
    (hcapr : s.capr = u.capr) : SameHandover (s.work.pidx = u.work.pidx) (unitResult i s) (unitResult i u) := by
  have hcap : s.cap = u.cap := congrArg BitVec.toNat hcapr
  cases i <;> simp only [unitResult, hibuf, hidx, hcap]
  case compress => exact (compressStages_sameHandover _ _ _ _).mono fun _ => trivial
  case decompress => exact (decompressStages_sameHandover _ _ _ _).mono fun _ => trivial
  case bwtFwd => exact (bwtFwdUnit_sameHandover _ _ _).mono fun _ => trivial
  case bwtInv => exact bwtInvUnit_sameHandover _ _ _ _
  case mtfEnc => exact mtfEncUnit_sameHandover _ _ _
  case mtfDec => exact mtfDecUnit_sameHandover _ _ _
  case rleEnc => exact rleEncUnit_sameHandover _ _ _ _
  case rleDec => exact rleDecUnit_sameHandover _ _ _ _
  case serWr => exact serWrUnit_sameHandover _ _ _ _ _
  case serRd => exact (serRdUnit_sameHandover _ _ _).mono fun _ => trivial

theorem raiseError_sameResult (k : ErrorKind) (hidx : s.idx = u.idx) : SameResult (raiseError k s) (raiseError k u) :=
  { mem := rfl, idx := hidx, status := rfl, err := rfl }

theorem succeed_sameResult {h g : Handover} (hseq : h.seq = g.seq) (hcarry : h.idx = g.idx) (hidx : s.idx = u.idx) :
    SameResult (succeed h s) (succeed g u) :=
  { mem := by simp [hseq], idx := by simp [hcarry, hidx], status := rfl, err := rfl }

/-- Completions with alike results look alike to the host (R185). -/
theorem complete_sameResult {P : Prop} {r r' : Except ErrorKind Handover} (hr : SameHandover P r r') (hidx : s.idx = u.idx) :
    SameResult (complete r s) (complete r' u) := by
  cases hr with
  | error k => exact raiseError_sameResult k hidx
  | ok seq idx _ => exact succeed_sameResult seq idx hidx

theorem exec_sameResult (i : Instr) (hibuf : s.mem.ibuf = u.mem.ibuf) (hidx : s.idx = u.idx) (hcapr : s.capr = u.capr) :
    ∃ s' u', exec i s = .next s' ∧ exec i u = .next u' ∧ SameResult s' u' :=
  ⟨_, _, exec_eq_complete i s, exec_eq_complete i u,
    complete_sameResult (unitResult_sameHandover i hibuf hidx hcapr) hidx⟩

/-- The core's turn of two running calls with the same latches and operands. -/
theorem coreTurn_sameResult {s' : State} (hibuf : s.mem.ibuf = u.mem.ibuf) (hidx : s.idx = u.idx) (hcapr : s.capr = u.capr)
    (hs : s.status = .busy) (hu : u.status = .busy) (hlcmd : s.lcmd = u.lcmd) (hlill : s.lill = u.lill)
    (hturn : coreTurn s = .next s') : ∃ u', coreTurn u = .next u' ∧ SameResult s' u' := by
  obtain ⟨hidle, -⟩ | ⟨-, hl, rfl⟩ | ⟨-, hl, i, hi, rfl⟩ := coreTurn_cases hturn
  · exact absurd hs hidle
  · exact ⟨_, coreTurn_of_illegal hu (hlill ▸ hl), raiseError_sameResult _ hidx⟩
  · refine ⟨complete (unitResult i u) u, ?_, complete_sameResult (unitResult_sameHandover i hibuf hidx hcapr) hidx⟩
    rw [coreTurn_of_command hu (hlill ▸ hl) (hlcmd ▸ hi), exec_eq_complete]

end SameOperands

/-! ### The statements -/

/-- Settles O26: no unit's handover depends on the hidden storage it finds, so neither does a completion nor the core's turn. -/
theorem noCrossCallLeakage : Obligations.NoCrossCallLeakage := by
  intro s u hibuf hidx hcapr
  constructor
  · intro i
    exact exec_sameResult i hibuf hidx hcapr
  · intro hs hu hlcmd hlill s' hturn
    exact coreTurn_sameResult hibuf hidx hcapr hs hu hlcmd hlill hturn

/-- Settles O11: both STARTs are accepted, and `startCall` overwrites the two fields in which the states differ. -/
theorem startForgetsLastOutcome : Obligations.StartForgetsLastOutcome := by
  intro s w st k hs hst
  refine ⟨startCall w s, hostStep_start_of_not_busy w hs, ?_⟩
  rw [hostStep_start_of_not_busy w hst, startCall_status_err]

/-- Settles O20: the fields of `State.reset`, and the bounds of the configured capacity (R7). -/
theorem resetValues : Obligations.ResetValues := by
  have hmin : 6 ≤ State.reset.cap := configCap_min
  have hmax : State.reset.cap ≤ 2 ^ 32 - 1 := Nat.le_pred_of_lt State.reset.capr.isLt
  exact ⟨rfl, rfl, rfl, rfl, rfl, rfl, rfl, rfl, rfl, hmin, hmax⟩

end Sys2Proof.Machine

/-! ## The encodings (30_encoding.md): the command word, the codes of STATE and KIND -/

namespace Sys2Proof

/-! ### Format C: a word is its three fields (R70) -/

/-- The fields ZERO, UNIT and DIR tile the word. -/
theorem append_fields (w : Word) : (zeroField w ++ unitField w) ++ dirField w = w :=
  calc (zeroField w ++ unitField w) ++ dirField w
    _ = w.extractLsb' 1 31 ++ dirField w :=
      congrArg (· ++ dirField w) (BitVec.extractLsb'_append_extractLsb'_eq_extractLsb' rfl)
    _ = w := BitVec.extractLsb'_append_extractLsb' (w := 31)

section Append

variable (z : BitVec 28) (u : BitVec 3) (d : BitVec 1)

@[simp] theorem zeroField_append : zeroField ((z ++ u) ++ d) = z :=
  (BitVec.extractLsb'_append_eq_of_le (by decide : 1 ≤ 4)).trans BitVec.extractLsb'_append_eq_left

@[simp] theorem unitField_append : unitField ((z ++ u) ++ d) = u :=
  (BitVec.extractLsb'_append_eq_of_le (le_refl 1)).trans BitVec.extractLsb'_append_eq_right

@[simp] theorem dirField_append : dirField ((z ++ u) ++ d) = d :=
  BitVec.extractLsb'_append_eq_right

end Append

/-- A word is a command's exactly if its three fields are the command's. -/
theorem eq_encode_iff_fields (w : Word) (i : Instr) :
    w = encode i ↔ zeroField w = 0#28 ∧ unitField w = encodeUnit i.unit ∧ dirField w = encodeDir i.direction := by
  constructor
  · rintro rfl
    simp [encode]
  · rintro ⟨hz, hu, hd⟩
    rw [encode, ← hz, ← hu, ← hd, append_fields]

/-! ### The decoder inverts each field's table (R70, R71) -/

/-- UNIT names a unit by that unit's value only; the values 5 to 7 name none. -/
theorem decodeUnit_eq_some_iff (b : BitVec 3) (u : BlockUnit) : decodeUnit b = some u ↔ b = encodeUnit u := by
  revert b
  cases u <;> decide

theorem decodeDir_eq_iff (b : BitVec 1) (d : Direction) : decodeDir b = d ↔ b = encodeDir d := by
  revert b
  cases d <;> decide

/-- Each command is the one command of its unit and its direction. -/
theorem commandOf_eq_iff (u : BlockUnit) (d : Direction) (i : Instr) :
    commandOf u d = i ↔ u = i.unit ∧ d = i.direction := by
  constructor
  · rintro rfl
    cases u <;> cases d <;> exact ⟨rfl, rfl⟩
  · rintro ⟨rfl, rfl⟩
    cases i <;> rfl

/-- What the decoder accepts, field by field (R71, R72). -/
theorem decode_eq_ok_iff (w : Word) (i : Instr) :
    decode w = .ok i ↔
      zeroField w = 0#28 ∧ decodeUnit (unitField w) = some i.unit ∧ decodeDir (dirField w) = i.direction := by
  unfold decode
  by_cases hz : zeroField w = 0#28
  · cases hu : decodeUnit (unitField w) with
    | none => simp [hz]
    | some u => simp [hz, commandOf_eq_iff]
  · simp [hz]

/-- The decoder matches the full word (R71): a word is a command exactly if it is that command's word. -/
theorem decode_eq_ok_iff_eq_encode (w : Word) (i : Instr) : decode w = .ok i ↔ w = encode i := by
  rw [decode_eq_ok_iff, eq_encode_iff_fields, decodeUnit_eq_some_iff, decodeDir_eq_iff]

/-- Settles O2: `encode` evaluates to the table's values, and decoder and encoder agree field by field. -/
theorem decodeMatchesFullWord : Obligations.DecodeMatchesFullWord :=
  ⟨⟨rfl, rfl, rfl, rfl, rfl, rfl, rfl, rfl, rfl, rfl⟩, decode_eq_ok_iff_eq_encode⟩

end Sys2Proof

namespace Sys2Proof.Machine

/-! ### The codes of STATE and KIND as register words (R80, R81) -/

theorem statusWord_of_status {s : State} {st : CallState} (h : s.status = st) :
    s.statusWord = (stateCode st).setWidth 32 := by
  rw [State.statusWord, h]

theorem errWord_of_err {s : State} {k : ErrorKind} (h : s.err = k) : s.errWord = (kindCode k).setWidth 32 := by
  rw [State.errWord, h]

/-- Settles O14: each register is the code of its one field, widened with zeros. -/
theorem statusAndErrRegisters : Obligations.StatusAndErrRegisters := fun _ =>
  ⟨statusWord_of_status, statusWord_of_status, statusWord_of_status, statusWord_of_status,
    errWord_of_err, errWord_of_err, errWord_of_err, errWord_of_err, errWord_of_err, errWord_of_err, errWord_of_err⟩

end Sys2Proof.Machine

/-! ## The Burrows-Wheeler transform (40_bwt.md): the canonical order, the row table, BWT_FWD and BWT_INV -/

namespace Sys2Proof.Machine

/-! ### The orders of sequences and of rotations (R11, R92)

The machine's tests `lexLt` and `rotLt` decide the relations `LexBelow` and `RotBelow`, and both are strict total orders, the
first on sequences of one length. -/

theorem lexBelow_cons_iff (x y : Byte) (xs ys : Bytes) :
    LexBelow (x :: xs) (y :: ys) ↔ x.toNat < y.toNat ∨ (x = y ∧ LexBelow xs ys) := by
  constructor
  · rintro ⟨j, hj, heq, hlt⟩
    cases j with
    | zero => exact .inl hlt
    | succ j =>
      exact .inr ⟨heq 0 j.succ_pos, j, Nat.lt_of_succ_lt_succ hj, fun i hi => heq (i + 1) (Nat.succ_lt_succ hi), hlt⟩
  · rintro (h | ⟨rfl, j, hj, heq, hlt⟩)
    · exact ⟨0, by simp, fun i hi => absurd hi (Nat.not_lt_zero i), h⟩
    · refine ⟨j + 1, Nat.succ_lt_succ hj, fun i hi => ?_, hlt⟩
      cases i with
      | zero => rfl
      | succ i => exact heq i (Nat.lt_of_succ_lt_succ hi)

theorem lexLt_iff_lexBelow (a b : Bytes) : lexLt a b = true ↔ LexBelow a b := by
  induction a generalizing b with
  | nil => simp [lexLt, LexBelow]
  | cons x xs ih =>
    cases b with
    | nil => simp [lexLt, LexBelow]
    | cons y ys => rw [lexLt_cons, lexBelow_cons_iff, ih]

theorem lexLt_eq_false_iff (a b : Bytes) : lexLt a b = false ↔ ¬ LexBelow a b := by
  rw [← lexLt_iff_lexBelow, Bool.not_eq_true]

theorem LexBelow.trans {a b c : Bytes} (hab : LexBelow a b) (hbc : LexBelow b c) : LexBelow a c := by
  rw [← lexLt_iff_lexBelow] at *
  exact lexLt_trans a b c hab hbc

theorem LexBelow.asymm {a b : Bytes} (hab : LexBelow a b) : ¬ LexBelow b a := by
  rw [← lexLt_iff_lexBelow] at hab
  exact (lexLt_eq_false_iff b a).1 (lexLt_asymm a b hab)

theorem not_lexBelow_self (a : Bytes) : ¬ LexBelow a a := fun h => h.asymm h

theorem eq_of_not_lexBelow {a b : Bytes} (hl : a.length = b.length) (hab : ¬ LexBelow a b) (hba : ¬ LexBelow b a) :
    a = b :=
  eq_of_not_lexLt hl ((lexLt_eq_false_iff a b).2 hab) ((lexLt_eq_false_iff b a).2 hba)

/-- Where the first bytes decide the order, they decide it for the whole sequences. -/
theorem LexBelow.of_take {m : Nat} {a b : Bytes} (h : LexBelow (a.take m) (b.take m)) : LexBelow a b := by
  obtain ⟨j, hj, heq, hlt⟩ := h
  rw [List.length_take, Nat.lt_min] at hj
  have take_getD : ∀ (l : Bytes) {i : Nat}, i < m → (l.take m).getD i 0 = l.getD i 0 := fun l i hi => by
    rw [List.getD_eq_getElem?_getD, List.getElem?_take_of_lt hi, List.getD_eq_getElem?_getD]
  refine ⟨j, hj.2, fun i hi => ?_, ?_⟩
  · simpa only [take_getD _ (hi.trans hj.1)] using heq i hi
  · simpa only [take_getD _ hj.1] using hlt

@[simp] theorem rotation_length (S : Bytes) (i : Nat) : (rotation S i).length = S.length := by
  rw [rotation, List.length_append, List.length_drop, List.length_take]
  omega

/-- The machine's comparison of rotations is R92's. -/
theorem rotLt_iff_rotBelow {S : Bytes} {i j : Nat} (hi : i < S.length) (hj : j < S.length) :
    rotLt S i j = true ↔ RotBelow S i j := by
  simp [rotLt, RotBelow, rot_eq_rotation hi, rot_eq_rotation hj, lexLt_iff_lexBelow]

theorem rotLt_eq_false_iff {S : Bytes} {i j : Nat} (hi : i < S.length) (hj : j < S.length) :
    rotLt S i j = false ↔ ¬ RotBelow S i j := by
  rw [← rotLt_iff_rotBelow hi hj, Bool.not_eq_true]

section RotBelow

variable {S : Bytes} {i j k : Nat}

theorem RotBelow.trans (hij : RotBelow S i j) (hjk : RotBelow S j k) : RotBelow S i k := by
  rcases hij with hij | ⟨eij, hij⟩ <;> rcases hjk with hjk | ⟨ejk, hjk⟩
  · exact .inl (hij.trans hjk)
  · exact .inl (ejk ▸ hij)
  · exact .inl (eij ▸ hjk)
  · exact .inr ⟨eij.trans ejk, hij.trans hjk⟩

theorem not_rotBelow_self : ¬ RotBelow S i i := by
  rintro (h | ⟨-, h⟩)
  · exact not_lexBelow_self _ h
  · exact lt_irrefl i h

theorem RotBelow.asymm (hij : RotBelow S i j) : ¬ RotBelow S j i := fun hji => not_rotBelow_self (hij.trans hji)

/-- The tie-break by offset makes the order of rotations total on offsets. -/
theorem eq_of_not_rotBelow (hij : ¬ RotBelow S i j) (hji : ¬ RotBelow S j i) : i = j := by
  rw [RotBelow, not_or, not_and] at hij hji
  have hrot : rotation S i = rotation S j := eq_of_not_lexBelow (by simp) hij.1 hji.1
  have hle : ¬ i < j := hij.2 hrot
  have hge : ¬ j < i := hji.2 hrot.symm
  omega

theorem RotBelow.not_rotation_lexBelow (hij : RotBelow S i j) : ¬ LexBelow (rotation S j) (rotation S i) := by
  rcases hij with h | ⟨h, -⟩
  · exact h.asymm
  · exact h ▸ not_lexBelow_self _

end RotBelow

/-! ### Sorted lists: neighbours in order, and every two elements in order -/

section Sorted

variable {α : Type} {R : α → α → Prop}

theorem pairwise_of_neighbours {l : List α} (d : α) (trans : ∀ {a b c}, R a b → R b c → R a c)
    (h : ∀ k, k + 1 < l.length → R (l.getD k d) (l.getD (k + 1) d)) : l.Pairwise R := by
  have : Trans R R R := ⟨trans⟩
  refine (List.isChain_iff_getElem.2 fun k hk => ?_).pairwise
  have hk' := h k hk
  rwa [List.getD_eq_getElem _ _ hk, List.getD_eq_getElem _ _ (Nat.lt_of_succ_lt hk)] at hk'

theorem pairwise_getD {l : List α} (h : l.Pairwise R) (d : α) {j k : Nat} (hjk : j < k) (hk : k < l.length) :
    R (l.getD j d) (l.getD k d) := by
  rw [List.getD_eq_getElem _ _ hk, List.getD_eq_getElem _ _ (hjk.trans hk)]
  exact List.pairwise_iff_getElem.1 h j k _ hk hjk

/-- In a transitive order that compares any two different elements, "not below" is transitive as well. -/
theorem not_below_trans {a b c : α} (trans : ∀ {a b c}, R a b → R b c → R a c) (total : ¬ R a b → ¬ R b a → a = b)
    (hba : ¬ R b a) (hcb : ¬ R c b) : ¬ R c a := by
  intro hca
  by_cases hab : R a b
  · exact hcb (trans hca hab)
  · exact hcb (total hab hba ▸ hca)

end Sorted

/-! ### The canonical permutation (R93, R94) -/

theorem CanonicalPerm.length {S : Bytes} {P : List Nat} (h : CanonicalPerm S P) : P.length = S.length := by
  simpa using h.offsets.length_eq

theorem CanonicalPerm.pairwise {S : Bytes} {P : List Nat} (h : CanonicalPerm S P) : P.Pairwise (RotBelow S) :=
  pairwise_of_neighbours 0 RotBelow.trans h.ordered

theorem mem_perm_iff {S : Bytes} {i : Nat} : i ∈ perm S ↔ i < S.length :=
  (perm_perm S).mem_iff.trans List.mem_range

theorem perm_nodup (S : Bytes) : (perm S).Nodup := (perm_perm S).nodup_iff.2 List.nodup_range

/-- Sorting leaves no offset with one below it behind it; offsets do not repeat, so the one before is below. -/
theorem perm_pairwise (S : Bytes) : (perm S).Pairwise (RotBelow S) := by
  have hsorted : (perm S).Pairwise fun i j => rotLt S j i = false := by
    refine sortBy_pairwise (P := (· < S.length)) (rotLt S) ?_ ?_ _ fun i hi => List.mem_range.1 hi
    · intro i j hi hj hij
      rw [rotLt_iff_rotBelow hi hj] at hij
      exact (rotLt_eq_false_iff hj hi).2 hij.asymm
    · intro i j k hi hj hk hji hkj
      rw [rotLt_eq_false_iff hj hi] at hji
      rw [rotLt_eq_false_iff hk hj] at hkj
      exact (rotLt_eq_false_iff hk hi).2 (not_below_trans RotBelow.trans eq_of_not_rotBelow hji hkj)
  refine (hsorted.and (perm_nodup S)).imp_of_mem fun {i j} hi hj h => ?_
  obtain ⟨hji, hne⟩ := h
  by_contra hij
  exact hne (eq_of_not_rotBelow hij ((rotLt_eq_false_iff (mem_perm_iff.1 hj) (mem_perm_iff.1 hi)).1 hji))

theorem perm_canonicalPerm (S : Bytes) : CanonicalPerm S (perm S) where
  offsets := perm_perm S
  ordered k hk := pairwise_getD (perm_pairwise S) 0 k.lt_succ_self hk

theorem CanonicalPerm.eq_perm {S : Bytes} {P : List Nat} (h : CanonicalPerm S P) : P = perm S :=
  List.Perm.eq_of_pairwise (fun _ _ _ _ hij hji => absurd hji hij.asymm) h.pairwise (perm_pairwise S)
    (h.offsets.trans (perm_perm S).symm)

/-- Settles O38: the machine's sort meets R93, and a list in a strict order is fixed by its elements. -/
theorem canonicalPermExistsUnique : Obligations.CanonicalPermExistsUnique :=
  fun S => ⟨perm_canonicalPerm S, fun _ h => h.eq_perm⟩

@[simp] theorem rotation_zero (S : Bytes) : rotation S 0 = S := by simp [rotation]

/-- The row of offset 0 holds the sequence itself, and an earlier equal row would have an offset below 0 (R94). -/
theorem CanonicalPerm.rotation_ne_before {S : Bytes} {P : List Nat} (h : CanonicalPerm S P) {j k : Nat} (hk : k < P.length)
    (h0 : P.getD k 0 = 0) (hjk : j < k) : rotation S (P.getD j 0) ≠ S := by
  intro hrot
  have hbelow := pairwise_getD h.pairwise 0 hjk hk
  rw [h0, RotBelow, rotation_zero, hrot] at hbelow
  rcases hbelow with hlex | ⟨-, hneg⟩
  · exact not_lexBelow_self S hlex
  · exact Nat.not_lt_zero _ hneg

/-- Settles O47: the relation's permutation is the given one, whose rows before the primary index differ from S. -/
theorem primaryIndexIsFirstEqualRow : Obligations.PrimaryIndexIsFirstEqualRow := by
  rintro S L P k - hP ⟨P', hP', -, hk, h0⟩
  obtain rfl : P' = P := hP'.eq_perm.trans hP.eq_perm.symm
  exact ⟨by rw [h0, rotation_zero], fun j hj => hP.rotation_ne_before hk h0 hj⟩

/-! ### The row table (R97, R98, R100) -/

/-- `a` may stand before `b` among sorted rows of one length. -/
def RowOrder (a b : Bytes) : Prop := a.length = b.length ∧ ¬ LexBelow b a

theorem RowOrder.trans {a b c : Bytes} (hab : RowOrder a b) (hbc : RowOrder b c) : RowOrder a c :=
  ⟨hab.1.trans hbc.1, not_below_trans LexBelow.trans (eq_of_not_lexBelow hab.1) hab.2 hbc.2⟩

theorem RowOrder.antisymm {a b : Bytes} (hab : RowOrder a b) (hba : RowOrder b a) : a = b :=
  eq_of_not_lexBelow hab.1 hba.2 hab.2

theorem isSortOf_of_pairwise {X Y : List Bytes} (rows : Y.Perm X) (h : Y.Pairwise fun a b => ¬ LexBelow b a) :
    IsSortOf X Y :=
  ⟨rows, fun k hk => pairwise_getD h [] k.lt_succ_self hk⟩

section RowsOfOneLength

variable {m : Nat} {X : List Bytes} (hX : ∀ r, r ∈ X → r.length = m)
include hX

/-- The machine's sort of rows is one of R97's. -/
theorem sortRows_isSortOf : IsSortOf X (sortRows X) := by
  have hsorted : (sortRows X).Pairwise fun a b => lexLt b a = false := by
    refine sortBy_pairwise (P := (·.length = m)) lexLt (fun a b _ _ => lexLt_asymm a b) ?_ X hX
    intro a b c ha hb _ hba hcb
    rw [lexLt_eq_false_iff] at *
    exact not_below_trans LexBelow.trans (eq_of_not_lexBelow (ha.trans hb.symm)) hba hcb
  exact isSortOf_of_pairwise (sortBy_perm lexLt X) (hsorted.imp (lexLt_eq_false_iff _ _).1)

theorem IsSortOf.pairwise {Y : List Bytes} (h : IsSortOf X Y) : Y.Pairwise RowOrder := by
  have hY : ∀ {k}, k < Y.length → (Y.getD k []).length = m := fun {k} hk => by
    rw [List.getD_eq_getElem _ _ hk]
    exact hX _ (h.rows.mem_iff.1 (List.getElem_mem hk))
  exact pairwise_of_neighbours [] RowOrder.trans fun k hk =>
    ⟨(hY (Nat.lt_of_succ_lt hk)).trans (hY hk).symm, h.ordered k hk⟩

/-- Rows that neither is below the other are the same row, so the sorted list is unique (R97). -/
theorem IsSortOf.eq_sortRows {Y : List Bytes} (h : IsSortOf X Y) : Y = sortRows X :=
  List.Perm.eq_of_pairwise (fun _ _ _ _ => RowOrder.antisymm) (h.pairwise hX) ((sortRows_isSortOf hX).pairwise hX)
    (h.rows.trans (sortRows_isSortOf hX).rows.symm)

end RowsOfOneLength

/-- The rows to sort in the step from `T_j` to `T_(j+1)` have length `j + 1`. -/
theorem prepended_row_length (L : Bytes) (j : Nat) :
    ∀ r, r ∈ List.zipWith List.cons L (rowTable L j) → r.length = j + 1 := by
  intro r hr
  obtain ⟨k, hk, rfl⟩ := List.mem_iff_getElem.1 hr
  simp only [List.getElem_zipWith, List.length_cons]
  rw [rowTable_row_length L j _ (List.getElem_mem _)]

theorem rowTable_isRowTable (L : Bytes) (j : Nat) : IsRowTable L j (rowTable L j) := by
  induction j with
  | zero => rfl
  | succ j ih => exact ⟨rowTable L j, ih, sortRows_isSortOf (prepended_row_length L j)⟩

theorem IsRowTable.eq_rowTable {L : Bytes} {j : Nat} {T : List Bytes} (h : IsRowTable L j T) : T = rowTable L j := by
  induction j generalizing T with
  | zero => exact h
  | succ j ih =>
    obtain ⟨T', hT', hsort⟩ := h
    rw [ih hT'] at hsort
    exact hsort.eq_sortRows (prepended_row_length L j)

/-- Settles O39, by induction on the number of steps: a sort of rows of one length has one result. -/
theorem rowTableIgnoresTies : Obligations.RowTableIgnoresTies :=
  fun L j => ⟨rowTable_isRowTable L j, fun _ h => h.eq_rowTable⟩

/-! ### BWT_FWD (R95, R94, R104) -/

theorem rotation_eq_rotate {S : Bytes} {i : Nat} (h : i ≤ S.length) : rotation S i = S.rotate i :=
  (List.rotate_eq_drop_append_take h).symm

/-- `last` of R91 is the rotation's last byte. -/
theorem lastOfRot_eq_getLastD {S : Bytes} {i : Nat} (h : i < S.length) : lastOfRot S i = (rotation S i).getLastD 0 := by
  have hn : S.length - 1 < S.length := by omega
  rw [← rot_eq_rotation h, rot, List.getLastD_eq_getLast?, List.getLast?_eq_getElem?, List.length_map, List.length_range,
    List.getElem?_map, List.getElem?_range hn, Option.map_some, Option.getD_some, lastOfRot,
    Nat.add_sub_assoc (by omega)]

theorem positionOf_eq_idxOf (v : Nat) (l : List Nat) : positionOf v l = l.idxOf v := by
  induction l with
  | nil => rfl
  | cons x xs ih => simp [positionOf, List.idxOf_cons, ih, cond_eq_ite]

/-- The forward transform of a non-empty sequence is the machine's (R95). -/
theorem IsBwt.eq_unit {S L : Bytes} {k : Nat} (h : IsBwt S L k) :
    L = (perm S).map (lastOfRot S) ∧ k = positionOf 0 (perm S) ∧ k < S.length := by
  obtain ⟨P, hP, rfl, hk, h0⟩ := h
  obtain rfl := hP.eq_perm
  rw [List.getD_eq_getElem _ _ hk] at h0
  refine ⟨List.map_congr_left fun i hi => ?_, ?_, by simpa using hk⟩
  · exact (lastOfRot_eq_getLastD (mem_perm_iff.1 hi)).symm
  · rw [positionOf_eq_idxOf, ← h0, (perm_nodup S).idxOf_getElem]

/-- R95 is met by every non-empty sequence. -/
theorem exists_isBwt {S : Bytes} (h : S ≠ []) : ∃ L k, IsBwt S L k := by
  have hmem : 0 ∈ perm S := mem_perm_iff.2 (List.length_pos_iff.2 h)
  obtain ⟨k, hk, h0⟩ := List.mem_iff_getElem.1 hmem
  exact ⟨_, k, perm S, perm_canonicalPerm S, rfl, hk, by rwa [List.getD_eq_getElem _ _ hk]⟩

/-- What BWT_FWD answers on a non-empty input, by the relation of R95. -/
theorem exec_bwtFwd_of_isBwt {s : State} {L : Bytes} {k : Nat} (hne : s.mem.ibuf ≠ []) (h : IsBwt s.mem.ibuf L k) :
    ∃ t, exec .bwtFwd s = .next t ∧ CallSucceeds s t L (BitVec.ofNat 32 k) := by
  obtain ⟨rfl, rfl, -⟩ := h.eq_unit
  refine ⟨_, exec_eq_complete .bwtFwd s, ?_⟩
  rw [unitResult, bwtFwdUnit_ok hne, complete_ok]
  exact succeed_spec _ s

theorem exec_bwtFwd_empty {s : State} (h : s.mem.ibuf = []) :
    ∃ t, exec .bwtFwd s = .next t ∧ CallFails s t .corruptTransform := by
  refine ⟨_, exec_eq_complete .bwtFwd s, ?_⟩
  rw [unitResult, h, bwtFwdUnit_nil, complete_error]
  exact raiseError_spec _ s

/-- The index of an input that fits the capacity fits a register (R7). -/
theorem IsBwt.index_toNat {s : State} {L : Bytes} {k : Nat} (h : IsBwt s.mem.ibuf L k)
    (hcap : s.mem.ibuf.length ≤ s.cap) : (BitVec.ofNat 32 k).toNat = k := by
  obtain ⟨-, -, hk⟩ := h.eq_unit
  have hmax : s.cap < 2 ^ 32 := s.capr.isLt
  exact Nat.mod_eq_of_lt (by omega)

/-- Settles O28: the canonical permutation is unique, so the relation's output and index are the machine's. -/
theorem bwtFwdResult : Obligations.BwtFwdResult := by
  refine ⟨rfl, fun s => ⟨exec_bwtFwd_empty, fun L k hne h => ?_⟩⟩
  obtain ⟨t, ht, hs⟩ := exec_bwtFwd_of_isBwt hne h
  exact ⟨t, ht, hs, fun hcap => by rw [hs.idx, h.index_toNat hcap]⟩

/-- The offsets in any order, and each offset's successor on the circle: the same offsets (R104). -/
theorem map_perm_map_next {α : Type} {n : Nat} {P : List Nat} (h : P.Perm (List.range n)) (f : Nat → α) :
    (P.map f).Perm ((List.range n).map fun p => f ((p + 1) % n)) := by
  have hrot : (List.range n).rotate 1 = (List.range n).map fun p => (p + 1) % n := by
    apply List.ext_getElem
    · simp
    · intro k _ _
      simp [List.getElem_rotate]
  calc P.map f
    List.Perm _ (((List.range n).rotate 1).map f) := (h.trans (List.rotate_perm _ 1).symm).map f
    _ = (List.range n).map fun p => f ((p + 1) % n) := by rw [hrot, List.map_map]; rfl

/-- The rotation that starts one place later has this one's first byte at its end (R90). -/
theorem rotation_next {S : Bytes} {p : Nat} (h : p < S.length) :
    ∃ x xs, rotation S p = x :: xs ∧ rotation S ((p + 1) % S.length) = xs ++ [x] ∧ x = S.getD p 0 := by
  have hcons : rotation S p = S.getD p 0 :: (S.drop (p + 1) ++ S.take p) := by
    rw [rotation, List.drop_eq_getElem_cons h, List.getD_eq_getElem _ _ h, List.cons_append]
  refine ⟨_, _, hcons, ?_, rfl⟩
  rw [rotation_eq_rotate (Nat.mod_lt _ (by omega)).le, List.rotate_mod, ← List.rotate_rotate,
    ← rotation_eq_rotate h.le, hcons, List.rotate_cons_succ, List.rotate_zero]

theorem IsBwt.perm {S L : Bytes} {k : Nat} (h : IsBwt S L k) : L.Perm S := by
  obtain ⟨P, hP, rfl, -⟩ := h
  have hlast : ∀ p ∈ List.range S.length, (rotation S ((p + 1) % S.length)).getLastD 0 = S.getD p 0 := by
    intro p hp
    obtain ⟨x, xs, -, hnext, rfl⟩ := rotation_next (List.mem_range.1 hp)
    rw [hnext, List.getLastD_concat]
  have hbytes : (List.range S.length).map (S.getD · 0) = S :=
    List.ext_getElem (by simp) fun k _ hk => by simp [List.getElem?_eq_getElem hk]
  calc P.map (fun i => (rotation S i).getLastD 0)
    List.Perm _ ((List.range S.length).map fun p => (rotation S ((p + 1) % S.length)).getLastD 0) :=
      map_perm_map_next hP.offsets fun i => (rotation S i).getLastD 0
    _ = (List.range S.length).map (S.getD · 0) := List.map_congr_left hlast
    _ = S := hbytes

/-- Settles O46: the offset before each row's offset is again each offset once. -/
theorem bwtRearranges : Obligations.BwtRearranges := by
  intro s hne
  obtain ⟨L, k, h⟩ := exists_isBwt hne
  obtain ⟨t, ht, hs⟩ := exec_bwtFwd_of_isBwt hne h
  exact ⟨t, ht, hs.status, by rw [hs.obuf]; exact h.perm⟩

/-! ### BWT_INV (R99) and the bijection (R98, R101) -/

theorem exec_bwtInv_of_lt {u : State} (h : u.idx.toNat < u.mem.ibuf.length) :
    ∃ v, exec .bwtInv u = .next v ∧
      CallSucceeds u v ((rowTable u.mem.ibuf u.mem.ibuf.length).getD u.idx.toNat []) u.idx := by
  refine ⟨_, exec_eq_complete .bwtInv u, ?_⟩
  rw [unitResult, bwtInvUnit_ok h, complete_ok]
  exact succeed_spec _ u

theorem exec_bwtInv_of_ge {u : State} (h : u.mem.ibuf.length ≤ u.idx.toNat) :
    ∃ v, exec .bwtInv u = .next v ∧ CallFails u v .corruptTransform := by
  refine ⟨_, exec_eq_complete .bwtInv u, ?_⟩
  rw [unitResult, bwtInvUnit_error h, complete_error]
  exact raiseError_spec _ u

/-- Settles O29: every row table is the machine's. -/
theorem bwtInvResult : Obligations.BwtInvResult := by
  refine ⟨rfl, fun s => ⟨exec_bwtInv_of_ge, fun T hlt hT => ?_⟩⟩
  rw [hT.eq_rowTable]
  exact exec_bwtInv_of_lt hlt

/-- The rows of `T_j` for a forward image: the first `j` bytes of the rotations in canonical order (R98). -/
def rotationStarts (S : Bytes) (P : List Nat) (j : Nat) : List Bytes := P.map fun i => (rotation S i).take j

section ForwardImage

variable {S : Bytes} {P : List Nat}

/-- A rotation's last byte put before its first `j` bytes: the first `j + 1` bytes of the rotation that starts one place earlier. -/
theorem cons_take_rotation_next {p j : Nat} (hp : p < S.length) (hj : j < S.length) :
    (rotation S ((p + 1) % S.length)).getLastD 0 :: (rotation S ((p + 1) % S.length)).take j =
      (rotation S p).take (j + 1) := by
  obtain ⟨x, xs, hrot, hnext, -⟩ := rotation_next hp
  have hlen : xs.length + 1 = S.length := by rw [← rotation_length S p, hrot, List.length_cons]
  rw [hrot, hnext, List.getLastD_concat, List.take_append_of_le_length (by omega), List.take_succ_cons]

/-- The prepended rows are all rotations' first `j + 1` bytes, and the starts of sorted rows are sorted (R98). -/
theorem rotationStarts_isSortOf (hP : CanonicalPerm S P) {j : Nat} (hj : j < S.length) :
    IsSortOf (List.zipWith List.cons (P.map fun i => (rotation S i).getLastD 0) (rotationStarts S P j))
      (rotationStarts S P (j + 1)) := by
  refine isSortOf_of_pairwise ?_ ?_
  · refine List.Perm.symm ?_
    calc List.zipWith List.cons (P.map fun i => (rotation S i).getLastD 0) (rotationStarts S P j)
      _ = P.map fun i => (rotation S i).getLastD 0 :: (rotation S i).take j := by
        rw [rotationStarts, List.zipWith_map, List.zipWith_self]
      List.Perm _ ((List.range S.length).map fun p =>
          (rotation S ((p + 1) % S.length)).getLastD 0 :: (rotation S ((p + 1) % S.length)).take j) :=
        map_perm_map_next hP.offsets _
      _ = (List.range S.length).map fun p => (rotation S p).take (j + 1) :=
        List.map_congr_left fun p hp => cons_take_rotation_next (List.mem_range.1 hp) hj
      List.Perm _ (rotationStarts S P (j + 1)) := (hP.offsets.map _).symm
  · exact hP.pairwise.map _ fun a b hab h => hab.not_rotation_lexBelow h.of_take

/-- R98's table of a forward image, by induction on the number of steps. -/
theorem rotationStarts_isRowTable (hP : CanonicalPerm S P) {j : Nat} (hj : j ≤ S.length) :
    IsRowTable (P.map fun i => (rotation S i).getLastD 0) j (rotationStarts S P j) := by
  induction j with
  | zero => simp [IsRowTable, rotationStarts]
  | succ j ih => exact ⟨_, ih (by omega), rotationStarts_isSortOf hP hj⟩

/-- After `n` steps each row is its full rotation (R98). -/
theorem rowTable_forward_image (hP : CanonicalPerm S P) :
    rowTable (P.map fun i => (rotation S i).getLastD 0) S.length = P.map (rotation S) := by
  rw [← (rotationStarts_isRowTable hP le_rfl).eq_rowTable, rotationStarts]
  exact List.map_congr_left fun i _ => List.take_of_length_le (by simp)

end ForwardImage

/-- BWT_INV on a forward image delivers the rotation in row IDX (R98, R242). -/
theorem exec_bwtInv_forward_image {u : State} {S : Bytes} {P : List Nat} (hP : CanonicalPerm S P)
    (hL : u.mem.ibuf = P.map fun i => (rotation S i).getLastD 0) (hidx : u.idx.toNat < P.length) :
    ∃ v, exec .bwtInv u = .next v ∧ CallSucceeds u v (rotation S (P.getD u.idx.toNat 0)) u.idx := by
  have hlen : u.mem.ibuf.length = P.length := by simp [hL]
  obtain ⟨v, hv, hs⟩ := exec_bwtInv_of_lt (hlen ▸ hidx)
  rw [hlen, hL, hP.length, rowTable_forward_image hP, List.getD_eq_getElem _ _ (by simpa using hidx), List.getElem_map,
    ← List.getD_eq_getElem P 0 hidx] at hs
  exact ⟨v, hv, hs⟩

/-- Settles O44: the row that the index names is the rotation of offset 0, which is the input. -/
theorem bwtBijection : Obligations.BwtBijection := by
  intro s hne hcap
  obtain ⟨L, k, h⟩ := exists_isBwt hne
  obtain ⟨t, ht, hs⟩ := exec_bwtFwd_of_isBwt hne h
  refine ⟨t, ht, hs.status, fun u hibuf hidx => ?_⟩
  have hk : u.idx.toNat = k := by rw [hidx, hs.idx, h.index_toNat hcap]
  obtain ⟨P, hP, hL, hlt, h0⟩ := h
  obtain ⟨v, hv, hvs⟩ := exec_bwtInv_forward_image (u := u) hP (by rw [hibuf, hs.obuf, hL]) (hk ▸ hlt)
  rw [hk, h0, rotation_zero] at hvs
  exact ⟨v, hv, hvs⟩

end Sys2Proof.Machine

/-! ## Move to front (41_mtf.md): the symbol table, MTF_ENC and MTF_DEC -/

namespace Sys2Proof.Machine

/-! ### The symbol table and its two operations (R110, R111, R112) -/

/-- Every byte stands in the identity order (R110). -/
theorem mem_identityTable (b : Byte) : b ∈ identityTable :=
  List.mem_map.2 ⟨b.toNat, List.mem_range.2 b.isLt, by simp⟩

theorem identityTable_nodup : identityTable.Nodup := by
  refine List.Nodup.map_on (fun i hi j hj h => ?_) List.nodup_range
  have h' := congrArg BitVec.toNat h
  rwa [BitVec.toNat_ofNat, BitVec.toNat_ofNat, Nat.mod_eq_of_lt (List.mem_range.1 hi),
    Nat.mod_eq_of_lt (List.mem_range.1 hj)] at h'

/-- `rank` finds the byte it looks for (R111). -/
theorem getElem?_rank {T : Bytes} {b : Byte} (h : b ∈ T) : T[rank T b]? = some b := by
  induction T with
  | nil => cases h
  | cons x xs ih =>
    by_cases hx : x = b
    · simp [rank, hx]
    · have hb : b ∈ xs := List.mem_of_ne_of_mem (Ne.symm hx) h
      simpa [rank, hx] using ih hb

/-- The table with `b` taken out and put at the front (R112): the step of `tableAfter`. -/
def toFront (T : Bytes) (b : Byte) : Bytes := b :: T.erase b

theorem tableAfter_eq_foldl (seen : Bytes) : tableAfter seen = seen.foldl toFront identityTable := rfl

/-- In a table without repeats, to move the entry at `p` is to move the byte it holds. -/
theorem moveFront_eq_toFront {T : Bytes} {p : Nat} {b : Byte} (hT : T.Nodup) (h : T[p]? = some b) :
    moveFront T p = toFront T b := by
  obtain ⟨hp, rfl⟩ := List.getElem?_eq_some_iff.1 h
  rw [moveFront, List.getD_eq_getElem _ _ hp, toFront, hT.erase_getElem p hp]

theorem toFront_perm {T : Bytes} {b : Byte} (h : b ∈ T) : (toFront T b).Perm T := (List.perm_cons_erase h).symm

/-! ### The run that both loops make (R113, R114)

The encoder finds the rank of a given byte and the decoder the byte at a given rank; either way the two belong together and the
byte goes to the front. -/

/-- From the table `T`, the bytes `S` and the ranks `R` belong together place by place, and the table is `T'` at the end. -/
inductive MtfRun : (T S R T' : Bytes) → Prop
  | nil (T : Bytes) : MtfRun T [] [] T
  | cons {T S R T' : Bytes} {b r : Byte} (place : T[r.toNat]? = some b) (rest : MtfRun (toFront T b) S R T') :
    MtfRun T (b :: S) (r :: R) T'

section MtfRun

variable {T S R T' : Bytes}

theorem MtfRun.length (h : MtfRun T S R T') : R.length = S.length := by
  induction h with
  | nil => rfl
  | cons _ _ ih => rw [List.length_cons, List.length_cons, ih]

/-- Each rank is the place of its byte in the table of the bytes before it. -/
theorem MtfRun.place_of_lt (h : MtfRun T S R T') {i : Nat} (hi : i < S.length) :
    ((S.take i).foldl toFront T)[(R.getD i 0).toNat]? = some (S.getD i 0) := by
  induction h generalizing i with
  | nil => cases hi
  | cons place _ ih =>
    cases i with
    | zero => exact place
    | succ i => exact ih (Nat.lt_of_succ_lt_succ hi)

/-- A run from the identity order is R113's relation. -/
theorem MtfRun.isMtf (h : MtfRun identityTable S R T') : IsMtf S R :=
  { length := h.length, place := fun i hi => by rw [tableAfter_eq_foldl, h.place_of_lt hi] }

/-- A run only rearranges the table (R116). -/
theorem MtfRun.perm (h : MtfRun T S R T') : T'.Perm T := by
  induction h with
  | nil => rfl
  | cons place _ ih => exact ih.trans (toFront_perm (List.mem_of_getElem? place))

end MtfRun

section Loops

variable {T : Bytes} (hT : T.Perm identityTable)
include hT

/-- In a table with every byte once, the encoder's loop makes a run: each byte has a rank, and the rank fits a byte. -/
theorem mtfEncLoop_run (S : Bytes) : MtfRun T S (mtfEncLoop T S).1 (mtfEncLoop T S).2 := by
  induction S generalizing T with
  | nil => exact .nil T
  | cons b bs ih =>
    have hb : b ∈ T := hT.mem_iff.2 (mem_identityTable b)
    have hplace : T[rank T b]? = some b := getElem?_rank hb
    have hlt : rank T b < 256 := by
      simpa [hT.length_eq] using (List.getElem?_eq_some_iff.1 hplace).1
    have hrank : (BitVec.ofNat 8 (rank T b)).toNat = rank T b := Nat.mod_eq_of_lt hlt
    rw [mtfEncLoop, moveFront_eq_toFront (hT.nodup_iff.2 identityTable_nodup) hplace]
    exact .cons (by rw [hrank, hplace]) (ih ((toFront_perm hb).trans hT))

/-- In a table of 256 entries every rank has its byte, so the decoder's loop makes a run. -/
theorem mtfDecLoop_run (R : Bytes) : ∃ out, mtfDecLoop T R = .ok out ∧ MtfRun T out.1 R out.2 := by
  induction R generalizing T with
  | nil => exact ⟨([], T), rfl, .nil T⟩
  | cons r rs ih =>
    have hr : r.toNat < T.length := by
      rw [hT.length_eq, identityTable_length]
      exact r.isLt
    have hplace : T[r.toNat]? = some (T.getD r.toNat 0) := by
      rw [List.getD_eq_getElem _ _ hr, List.getElem?_eq_getElem hr]
    obtain ⟨out, hout, hrun⟩ := ih ((toFront_perm (List.mem_of_getElem? hplace)).trans hT)
    refine ⟨(T.getD r.toNat 0 :: out.1, out.2), ?_, .cons hplace hrun⟩
    rw [mtfDecLoop, if_neg (rank_check_dead r),
      moveFront_eq_toFront (hT.nodup_iff.2 identityTable_nodup) hplace, hout]

end Loops

/-! ### The statements -/

/-- Settles O43: both loops run from the identity order, and a run only rearranges its table. -/
theorem symbolTableStaysPermutation : Obligations.SymbolTableStaysPermutation := by
  refine ⟨fun S => (mtfEncLoop_run (.refl _) S).perm, fun R => ?_, identityTable_nodup, mem_identityTable⟩
  obtain ⟨out, hout, hrun⟩ := mtfDecLoop_run (.refl identityTable) R
  exact ⟨out, hout, hrun.perm⟩

/-- Settles O30: the encoder's loop makes a run over the input's bytes. -/
theorem mtfEncResult : Obligations.MtfEncResult := by
  refine ⟨rfl, fun s => ⟨_, _, exec_eq_complete .mtfEnc s, ?_, (mtfEncLoop_run (.refl _) s.mem.ibuf).isMtf⟩⟩
  rw [unitResult, mtfEncUnit_ok, complete_ok]
  exact succeed_spec _ s

/-- Settles O31: the decoder's loop makes a run over the input's ranks. -/
theorem mtfDecResult : Obligations.MtfDecResult := by
  refine ⟨rfl, fun s => ?_⟩
  obtain ⟨out, hout, hrun⟩ := mtfDecLoop_run (.refl identityTable) s.mem.ibuf
  obtain ⟨out', hout', -, hunit⟩ := mtfDecUnit_ok s.mem.ibuf s.work
  obtain rfl : out = out' := Except.ok.inj (hout.symm.trans hout')
  refine ⟨_, _, exec_eq_complete .mtfDec s, ?_, hrun.isMtf⟩
  rw [unitResult, hunit, complete_ok]
  exact succeed_spec _ s

end Sys2Proof.Machine

/-! ## Run lengths (42_rle.md): maximal runs, the run detector, RLE_ENC and RLE_DEC -/

namespace Sys2Proof.Machine

/-! ### The two endings of a command, by its result (R184, R185) -/

theorem exec_of_unitResult_ok {i : Instr} {s : State} {h : Handover} (hr : unitResult i s = .ok h) :
    ∃ t, exec i s = .next t ∧ CallSucceeds s t h.seq (h.idx.getD s.idx) :=
  ⟨_, exec_eq_complete i s, by rw [hr, complete_ok]; exact succeed_spec h s⟩

theorem exec_of_unitResult_error {i : Instr} {s : State} {k : ErrorKind} (hr : unitResult i s = .error k) :
    ∃ t, exec i s = .next t ∧ CallFails s t k :=
  ⟨_, exec_eq_complete i s, by rw [hr, complete_error]; exact raiseError_spec k s⟩

theorem CallFails.not_done {s t : State} {k : ErrorKind} (h : CallFails s t k) : t.status ≠ .done :=
  fun hd => nomatch h.status.symm.trans hd

/-! ### Maximal runs (R130) -/

section MaximalRuns

variable {S : Bytes} {rs : List (Nat × Byte)} {l : Nat} {v : Byte}

theorem head?_replicate_append (hl : 1 ≤ l) (rest : Bytes) : (List.replicate l v ++ rest).head? = some v := by
  obtain ⟨l, rfl⟩ := Nat.exists_eq_succ_of_ne_zero (Nat.one_le_iff_ne_zero.1 hl)
  rfl

/-- The empty decomposition is the empty sequence's. -/
theorem maximalRuns_empty_iff : MaximalRuns S [] ↔ S = [] :=
  ⟨fun h => h.whole, fun h => ⟨h, nofun, nofun⟩⟩

/-- The first run holds the first byte. -/
theorem MaximalRuns.head? (h : MaximalRuns S rs) : S.head? = rs.head?.map Prod.snd := by
  rw [h.whole]
  cases rs with
  | nil => rfl
  | cons r rs => exact head?_replicate_append (h.nonempty r List.mem_cons_self) _

/-- A decomposition begins with a run that the rest of the sequence does not continue. -/
theorem maximalRuns_cons_iff : MaximalRuns S ((l, v) :: rs) ↔
    1 ≤ l ∧ ∃ rest, S = List.replicate l v ++ rest ∧ MaximalRuns rest rs ∧ rest.head? ≠ some v := by
  constructor
  · rintro ⟨hwhole, hpos, hmax⟩
    have hrest : MaximalRuns (rs.flatMap fun r => List.replicate r.1 r.2) rs :=
      ⟨rfl, fun r hr => hpos r (List.mem_cons_of_mem _ hr), fun k hk => hmax (k + 1) (Nat.succ_lt_succ hk)⟩
    refine ⟨hpos _ List.mem_cons_self, _, hwhole, hrest, fun hhead => ?_⟩
    have hnext : rs.head?.map Prod.snd = some v := hrest.head?.symm.trans hhead
    cases rs with
    | nil => cases hnext
    | cons r rs => exact hmax 0 (by simp) (Option.some.inj hnext).symm
  · rintro ⟨hl, rest, rfl, hrest, hhead⟩
    rw [hrest.head?] at hhead
    refine ⟨by rw [hrest.whole]; rfl, List.forall_mem_cons.2 ⟨hl, hrest.nonempty⟩, fun k hk => ?_⟩
    cases k with
    | succ k => exact hrest.maximal k (Nat.lt_of_succ_lt_succ hk)
    | zero =>
      cases rs with
      | nil => exact absurd hk (by simp)
      | cons r rs => exact fun h => hhead (congrArg some h.symm)

/-- One byte in front of a decomposed sequence lengthens the first run or begins one of its own. -/
theorem exists_maximalRuns (S : Bytes) : ∃ rs, MaximalRuns S rs := by
  induction S with
  | nil => exact ⟨[], maximalRuns_empty_iff.2 rfl⟩
  | cons b S ih =>
    obtain ⟨rs, hrs⟩ := ih
    by_cases hb : S.head? = some b
    · match rs with
      | [] => exact nomatch hrs.head?.symm.trans hb
      | (l, v) :: rs =>
        obtain rfl : v = b := Option.some.inj (hrs.head?.symm.trans hb)
        obtain ⟨hl, rest, rfl, hrest, hhead⟩ := maximalRuns_cons_iff.1 hrs
        exact ⟨(l + 1, v) :: rs, maximalRuns_cons_iff.2 ⟨by omega, rest, rfl, hrest, hhead⟩⟩
    · exact ⟨(1, b) :: rs, maximalRuns_cons_iff.2 ⟨le_rfl, S, rfl, hrs, hb⟩⟩

/-- A first run that the rest does not continue is as long as the value stands at the front. -/
theorem replicate_append_inj {m : Nat} {rest rest' : Bytes} (h : List.replicate l v ++ rest = List.replicate m v ++ rest')
    (hrest : rest.head? ≠ some v) (hrest' : rest'.head? ≠ some v) : l = m ∧ rest = rest' := by
  induction l generalizing m with
  | zero =>
    cases m with
    | zero => exact ⟨rfl, h⟩
    | succ m => exact absurd (congrArg List.head? h) hrest
  | succ l ih =>
    cases m with
    | zero => exact absurd (congrArg List.head? h).symm hrest'
    | succ m =>
      obtain ⟨rfl, hr⟩ := ih (List.cons.inj h).2
      exact ⟨rfl, hr⟩

theorem MaximalRuns.unique {rs' : List (Nat × Byte)} (h : MaximalRuns S rs) (h' : MaximalRuns S rs') : rs' = rs := by
  have hfirst : rs'.head?.map Prod.snd = rs.head?.map Prod.snd := h'.head?.symm.trans h.head?
  induction rs generalizing S rs' with
  | nil => exact List.head?_eq_none_iff.1 (Option.map_eq_none_iff.1 hfirst)
  | cons r rs ih =>
    obtain ⟨l, v⟩ := r
    match rs' with
    | [] => cases hfirst
    | (m, w) :: rs' =>
      obtain rfl : w = v := Option.some.inj hfirst
      obtain ⟨-, rest, rfl, hrest, hhead⟩ := maximalRuns_cons_iff.1 h
      obtain ⟨-, rest', hS, hrest', hhead'⟩ := maximalRuns_cons_iff.1 h'
      obtain ⟨rfl, rfl⟩ := replicate_append_inj hS hhead hhead'
      rw [ih hrest hrest' (hrest'.head?.symm.trans hrest.head?)]

theorem MaximalRuns.eq_nil_iff (h : MaximalRuns S rs) : rs = [] ↔ S = [] := by
  constructor
  · rintro rfl
    exact maximalRuns_empty_iff.1 h
  · rintro rfl
    exact (maximalRuns_empty_iff.2 rfl).unique h

end MaximalRuns

/-- Settles O41: existence by adding bytes in front, uniqueness by comparing first runs. -/
theorem maximalRunsUnique : Obligations.MaximalRunsUnique := by
  intro S
  obtain ⟨rs, h⟩ := exists_maximalRuns S
  exact ⟨rs, h, fun _ => h.unique, h.eq_nil_iff⟩

/-! ### Pair lists and their serialised form (R131, R132, R139) -/

theorem serPairs_cons (p : RunPair) (ps : List RunPair) : serPairs (p :: ps) = p.1 :: p.2 :: serPairs ps := rfl

theorem serPairs_append (ps qs : List RunPair) : serPairs (ps ++ qs) = serPairs ps ++ serPairs qs :=
  List.flatMap_append

theorem expandPairs_append (ps qs : List RunPair) : expandPairs (ps ++ qs) = expandPairs ps ++ expandPairs qs :=
  List.flatMap_append

@[simp] theorem pairsOf_serPairs (ps : List RunPair) : pairsOf (serPairs ps) = ps := by
  induction ps with
  | nil => rfl
  | cons p ps ih => rw [serPairs_cons, pairsOf, ih]

/-- The decoder's pairs are the relation's counts and values by number. -/
theorem pairsOf_eq_map (B : Bytes) :
    pairsOf B = (List.range (B.length / 2)).map fun k => (countAt B k, valueAt B k) := by
  induction B using pairsOf.induct with
  | case1 c v rest ih =>
    have hlen : (c :: v :: rest).length / 2 = rest.length / 2 + 1 := by simp; omega
    rw [pairsOf, ih, hlen, List.range_succ_eq_map, List.map_cons, List.map_map]
    rfl
  | case2 B hB =>
    match B, hB with
    | [], _ => rfl
    | [_], _ => simp [pairsOf]
    | c :: v :: rest, hB => exact absurd rfl (hB c v rest)

@[simp] theorem pairsOf_length (B : Bytes) : (pairsOf B).length = B.length / 2 := by simp [pairsOf_eq_map]

theorem countTotal_eq_sumCounts (B : Bytes) : countTotal B = sumCounts (pairsOf B) := by
  rw [pairsOf_eq_map, sumCounts, List.map_map]
  rfl

theorem expansion_eq_expandPairs (B : Bytes) : expansion B = expandPairs (pairsOf B) := by
  rw [pairsOf_eq_map, expandPairs, List.flatMap_map]
  rfl

theorem expansion_length (B : Bytes) : (expansion B).length = countTotal B := by
  rw [expansion_eq_expandPairs, expandPairs_length, countTotal_eq_sumCounts]

theorem hasZeroCount_iff (B : Bytes) : HasZeroCount B ↔ ∃ p ∈ pairsOf B, p.1 = 0 := by
  simp [HasZeroCount, pairsOf_eq_map]

theorem legalRunList_iff (B : Bytes) : LegalRunList B ↔ B.length % 2 = 0 ∧ ∀ p ∈ pairsOf B, p.1 ≠ 0 := by
  simp only [LegalRunList, hasZeroCount_iff, not_exists, not_and, ne_eq]

theorem sumCounts_le (ps : List RunPair) : sumCounts ps ≤ 255 * ps.length := by
  rw [Nat.mul_comm, ← smul_eq_mul, ← List.length_map (as := ps) fun p => p.1.toNat]
  refine List.sum_le_card_nsmul _ 255 fun n hn => ?_
  obtain ⟨p, -, rfl⟩ := List.mem_map.1 hn
  exact Nat.le_of_lt_succ p.1.isLt

theorem length_le_sumCounts {ps : List RunPair} (h : ∀ p ∈ ps, p.1 ≠ 0) : ps.length ≤ sumCounts ps := by
  rw [← List.length_map (as := ps) fun p => p.1.toNat]
  refine List.length_le_sum_of_one_le _ fun n hn => ?_
  obtain ⟨p, hp, rfl⟩ := List.mem_map.1 hn
  have hne : p.1.toNat ≠ 0 := fun h0 => h p hp (BitVec.eq_of_toNat_eq h0)
  omega

/-! ### The run detector (R133, R134) -/

/-- A byte that equals the open run's value lengthens the run, up to 255. -/
theorem rdetStep_extend {c : Byte} (v : Byte) (hc : c.toNat < 255) :
    rdetStep ⟨true, v, c⟩ v = (⟨true, v, c + 1⟩, []) :=
  if_pos ⟨rfl, rfl, hc⟩

/-- Every other byte flushes the open run and opens one of its own. -/
theorem rdetStep_begin {d : RunDetector} {b : Byte} (h : ¬ (d.held = true ∧ d.val = b ∧ d.cnt.toNat < 255)) :
    rdetStep d b = (⟨true, b, 1⟩, (rdetFlush d).2) :=
  if_neg h

theorem rdetScan_cons (d : RunDetector) (b : Byte) (S : Bytes) :
    (rdetScan d (b :: S)).2 = (rdetStep d b).2 ++ (rdetScan (rdetStep d b).1 S).2 := rfl

/-- The first byte of a run only opens it. -/
theorem rdetStep_closed {d : RunDetector} (hd : d.held = false) (b : Byte) : rdetStep d b = (⟨true, b, 1⟩, []) := by
  rw [rdetStep_begin (by simp [hd]), rdetFlush, hd]
  rfl

/-- Below 255 a count does not wrap (R131). -/
theorem count_add_one_toNat {c : Byte} (hc : c.toNat < 255) : (c + 1).toNat = c.toNat + 1 := by bv_omega

theorem count_add_one_ne_zero {c : Byte} (hc : c.toNat < 255) : c + 1 ≠ 0 := by bv_omega

theorem expandPairs_rdetFlush (v c : Byte) : expandPairs (rdetFlush ⟨true, v, c⟩).2 = List.replicate c.toNat v :=
  List.append_nil _

/-- A step adds its byte to what the emitted pairs and the open run stand for. -/
theorem expandPairs_rdetStep (d : RunDetector) (b : Byte) :
    expandPairs ((rdetStep d b).2 ++ (rdetFlush (rdetStep d b).1).2) = expandPairs (rdetFlush d).2 ++ [b] := by
  by_cases h : d.held = true ∧ d.val = b ∧ d.cnt.toNat < 255
  · obtain ⟨held, v, c⟩ := d
    obtain ⟨rfl, rfl, hc⟩ := h
    simp only [rdetStep_extend v hc, List.nil_append, expandPairs_rdetFlush]
    rw [count_add_one_toNat hc, List.replicate_succ']
  · rw [rdetStep_begin h, expandPairs_append]
    rfl

/-- What a scan emits stands for the open run and then the input (R140). -/
theorem expandPairs_rdetScan (d : RunDetector) (S : Bytes) :
    expandPairs (rdetScan d S).2 = expandPairs (rdetFlush d).2 ++ S := by
  induction S generalizing d with
  | nil => exact (List.append_nil _).symm
  | cons b S ih =>
    rw [rdetScan_cons, expandPairs_append, ih, ← List.append_assoc, ← expandPairs_append, expandPairs_rdetStep,
      List.append_assoc, List.singleton_append]

/-- A step on a detector whose open run has a count from 1 emits no count 0 and keeps that. -/
theorem rdetStep_count_ne_zero {d : RunDetector} (h : ∀ p ∈ (rdetFlush d).2, p.1 ≠ 0) (b : Byte) :
    (∀ p ∈ (rdetStep d b).2, p.1 ≠ 0) ∧ ∀ p ∈ (rdetFlush (rdetStep d b).1).2, p.1 ≠ 0 := by
  by_cases hx : d.held = true ∧ d.val = b ∧ d.cnt.toNat < 255
  · obtain ⟨held, v, c⟩ := d
    obtain ⟨rfl, rfl, hc⟩ := hx
    rw [rdetStep_extend v hc]
    simpa [rdetFlush] using count_add_one_ne_zero hc
  · rw [rdetStep_begin hx]
    exact ⟨h, by simp [rdetFlush]⟩

/-- No scan emits a count of 0 (R136). -/
theorem rdetScan_count_ne_zero {d : RunDetector} (h : ∀ p ∈ (rdetFlush d).2, p.1 ≠ 0) (S : Bytes) :
    ∀ p ∈ (rdetScan d S).2, p.1 ≠ 0 := by
  induction S generalizing d with
  | nil => exact h
  | cons b S ih =>
    obtain ⟨hstep, hopen⟩ := rdetStep_count_ne_zero h b
    rw [rdetScan_cons]
    exact List.forall_mem_append.2 ⟨hstep, ih hopen⟩

/-- Before a byte of another value, the open run is over. -/
theorem rdetScan_of_head?_ne {v : Byte} (c : Byte) {S : Bytes} (h : S.head? ≠ some v) :
    (rdetScan ⟨true, v, c⟩ S).2 = (c, v) :: (rdetScan ⟨false, 0, 0⟩ S).2 := by
  cases S with
  | nil => rfl
  | cons b S =>
    have hne : v ≠ b := fun hv => h (congrArg some hv.symm)
    rw [rdetScan_cons, rdetScan_cons, rdetStep_begin fun h => hne h.2.1, rdetStep_closed rfl]
    rfl

theorem splitRun_toNat {c : Byte} (hc : c ≠ 0) (v : Byte) : splitRun c.toNat v = [c, v] := by
  have hne : c.toNat ≠ 0 := fun h0 => hc (BitVec.eq_of_toNat_eq h0)
  by_cases h : c.toNat = 255
  · obtain rfl : c = 255 := BitVec.eq_of_toNat_eq h
    rfl
  · have hlt : c.toNat < 255 := by omega
    simp [splitRun, Nat.div_eq_of_lt hlt, Nat.mod_eq_of_lt hlt, hne]

theorem splitRun_add_255 (l : Nat) (v : Byte) : splitRun (l + 255) v = 255 :: v :: splitRun l v := by
  simp [splitRun, List.replicate_succ]

/-- An open run of count `c` and `n` more bytes of its value: a run of `c + n`, split (R131). -/
theorem serPairs_rdetScan_run {c v : Byte} (hc : c ≠ 0) (n : Nat) {rest : Bytes} (hrest : rest.head? ≠ some v) :
    serPairs (rdetScan ⟨true, v, c⟩ (List.replicate n v ++ rest)).2 =
      splitRun (c.toNat + n) v ++ serPairs (rdetScan ⟨false, 0, 0⟩ rest).2 := by
  induction n generalizing c with
  | zero =>
    rw [List.replicate_zero, List.nil_append, rdetScan_of_head?_ne c hrest, Nat.add_zero, splitRun_toNat hc]
    rfl
  | succ n ih =>
    rw [List.replicate_succ, List.cons_append, rdetScan_cons]
    by_cases hlt : c.toNat < 255
    · rw [rdetStep_extend v hlt, List.nil_append, ih (count_add_one_ne_zero hlt), count_add_one_toNat hlt,
        Nat.add_right_comm, Nat.add_assoc]
    · obtain rfl : c = 255 := by bv_omega
      have hsplit : splitRun ((255 : Byte).toNat + (n + 1)) v = 255 :: v :: splitRun ((1 : Byte).toNat + n) v := by
        rw [← splitRun_add_255]
        congr 1
        simp
        omega
      rw [rdetStep_begin fun h => hlt h.2.2, serPairs_append, ih (by decide), hsplit]
      rfl

/-- From any closed detector the emitted pairs are the split maximal runs (R134). -/
theorem MaximalRuns.serPairs_rdetScan {d : RunDetector} {S : Bytes} {rs : List (Nat × Byte)} (hd : d.held = false)
    (h : MaximalRuns S rs) : serPairs (rdetScan d S).2 = rs.flatMap fun r => splitRun r.1 r.2 := by
  rw [rdetScan_closed S hd (e := ⟨false, 0, 0⟩) rfl]
  induction rs generalizing S with
  | nil =>
    obtain rfl := maximalRuns_empty_iff.1 h
    rfl
  | cons r rs ih =>
    obtain ⟨l, v⟩ := r
    obtain ⟨hl, rest, rfl, hrest, hhead⟩ := maximalRuns_cons_iff.1 h
    obtain ⟨n, rfl⟩ := Nat.exists_eq_add_of_le hl
    rw [Nat.add_comm, List.replicate_succ, List.cons_append, rdetScan_cons, rdetStep_closed rfl, List.nil_append,
      serPairs_rdetScan_run (by decide) n hhead, ih hrest, Nat.add_comm]
    rfl

/-! ### RLE_ENC (R135, R136) -/

/-- The pairs that RLE_ENC emits for an input (R135). -/
def runPairs (S : Bytes) : List RunPair := (rdetScan ⟨false, 0, 0⟩ S).2

/-- The relation's output is the machine's, for every input (R132, R135). -/
theorem isRle_iff (S B : Bytes) : IsRle S B ↔ B = serPairs (runPairs S) := by
  constructor
  · rintro ⟨rs, hrs, rfl⟩
    exact (hrs.serPairs_rdetScan rfl).symm
  · rintro rfl
    obtain ⟨rs, hrs⟩ := exists_maximalRuns S
    exact ⟨rs, hrs, hrs.serPairs_rdetScan rfl⟩

@[simp] theorem expandPairs_runPairs (S : Bytes) : expandPairs (runPairs S) = S := expandPairs_rdetScan _ S

theorem sumCounts_runPairs (S : Bytes) : sumCounts (runPairs S) = S.length := by
  rw [← expandPairs_length, expandPairs_runPairs]

theorem runPairs_count_ne_zero (S : Bytes) : ∀ p ∈ runPairs S, p.1 ≠ 0 := rdetScan_count_ne_zero (by simp [rdetFlush]) S

theorem exec_rleEnc_of_le {s : State} (h : (serPairs (runPairs s.mem.ibuf)).length ≤ s.cap) :
    ∃ t, exec .rleEnc s = .next t ∧ CallSucceeds s t (serPairs (runPairs s.mem.ibuf)) s.idx := by
  obtain ⟨w, hw⟩ := (rleEncUnit_eq s.cap s.mem.ibuf s.work).2 h
  exact exec_of_unitResult_ok (i := .rleEnc) hw

theorem exec_rleEnc_of_gt {s : State} (h : s.cap < (serPairs (runPairs s.mem.ibuf)).length) :
    ∃ t, exec .rleEnc s = .next t ∧ CallFails s t .capacityExceeded :=
  exec_of_unitResult_error (i := .rleEnc) ((rleEncUnit_eq s.cap s.mem.ibuf s.work).1 h)

/-- Settles O32: the split maximal runs are what the detector emits. -/
theorem rleEncResult : Obligations.RleEncResult := by
  refine ⟨rfl, fun s B hB => ?_⟩
  rw [(isRle_iff _ _).1 hB]
  exact ⟨exec_rleEnc_of_le, exec_rleEnc_of_gt⟩

/-- A finished RLE_ENC has delivered the input's pairs. -/
theorem exec_rleEnc_done (s : State) :
    ∃ t, exec .rleEnc s = .next t ∧ (t.status = .done → t.mem.obuf = serPairs (runPairs s.mem.ibuf)) := by
  rcases Nat.lt_or_ge s.cap (serPairs (runPairs s.mem.ibuf)).length with h | h
  · obtain ⟨t, ht, hf⟩ := exec_rleEnc_of_gt h
    exact ⟨t, ht, fun hd => absurd hd hf.not_done⟩
  · obtain ⟨t, ht, hs⟩ := exec_rleEnc_of_le h
    exact ⟨t, ht, fun _ => hs.obuf⟩

/-! ### RLE_DEC (R139) -/

section Decoder

variable {cap : Nat} {B : Bytes}

/-- An odd length or a zero count, whichever is found (R139). -/
theorem rleDecUnit_of_not_legal (h : ¬ LegalRunList B) (w : Working) : rleDecUnit cap B w = .error .corruptTransform := by
  by_cases hodd : B.length % 2 = 1
  · rw [rleDecUnit, if_pos hodd]
  · have hzero : (pairsOf B).any (fun p => p.1 == 0) = true := by
      simpa [legalRunList_iff, show B.length % 2 = 0 by omega] using h
    rw [rleDecUnit, if_neg hodd, if_pos hzero]

/-- A legal RunList passes the first two tests, and the capacity decides (R139). -/
theorem rleDecUnit_of_legal (h : LegalRunList B) (w : Working) :
    rleDecUnit cap B w = if cap < countTotal B then .error .capacityExceeded
      else .ok { seq := expansion B, idx := none, work := { w with stage := .rle } } := by
  obtain ⟨heven, hcounts⟩ := (legalRunList_iff B).1 h
  have hzero : ¬ (pairsOf B).any (fun p => p.1 == 0) = true := by
    rw [List.any_eq_true]
    rintro ⟨p, hp, h0⟩
    exact hcounts p hp (beq_iff_eq.1 h0)
  rw [rleDecUnit, if_neg (by omega), if_neg hzero, countTotal_eq_sumCounts, expansion_eq_expandPairs]

end Decoder

section ExecRleDec

variable {s : State}

theorem exec_rleDec_of_not_legal (h : ¬ LegalRunList s.mem.ibuf) :
    ∃ t, exec .rleDec s = .next t ∧ CallFails s t .corruptTransform :=
  exec_of_unitResult_error (i := .rleDec) (rleDecUnit_of_not_legal h s.work)

theorem exec_rleDec_of_gt (h : LegalRunList s.mem.ibuf) (hcap : s.cap < countTotal s.mem.ibuf) :
    ∃ t, exec .rleDec s = .next t ∧ CallFails s t .capacityExceeded :=
  exec_of_unitResult_error (i := .rleDec) ((rleDecUnit_of_legal h s.work).trans (if_pos hcap))

theorem exec_rleDec_of_le (h : LegalRunList s.mem.ibuf) (hcap : countTotal s.mem.ibuf ≤ s.cap) :
    ∃ t, exec .rleDec s = .next t ∧ CallSucceeds s t (expansion s.mem.ibuf) s.idx :=
  exec_of_unitResult_ok (i := .rleDec) ((rleDecUnit_of_legal h s.work).trans (if_neg hcap.not_gt))

end ExecRleDec

/-- Settles O33: the first two tests ask whether the RunList is legal, the third is the capacity. -/
theorem rleDecResult : Obligations.RleDecResult := by
  refine ⟨rfl, fun s => ⟨fun hodd => ?_, fun _ hzero => ?_, exec_rleDec_of_gt, fun hlegal hcap => ?_⟩⟩
  · exact exec_rleDec_of_not_legal fun h => by have := h.1; omega
  · exact exec_rleDec_of_not_legal fun h => h.2 hzero
  · obtain ⟨t, ht, hs⟩ := exec_rleDec_of_le hlegal hcap
    exact ⟨t, ht, hs, by rw [hs.obuf, expansion_length]⟩

/-! ### RLE_DEC after RLE_ENC, and the lengths of both outputs (R136, R140, R141) -/

theorem legalRunList_serPairs_runPairs (S : Bytes) : LegalRunList (serPairs (runPairs S)) := by
  rw [legalRunList_iff, serPairs_length, pairsOf_serPairs]
  exact ⟨Nat.mul_mod_right 2 _, runPairs_count_ne_zero S⟩

theorem countTotal_serPairs_runPairs (S : Bytes) : countTotal (serPairs (runPairs S)) = S.length := by
  rw [countTotal_eq_sumCounts, pairsOf_serPairs, sumCounts_runPairs]

theorem expansion_serPairs_runPairs (S : Bytes) : expansion (serPairs (runPairs S)) = S := by
  rw [expansion_eq_expandPairs, pairsOf_serPairs, expandPairs_runPairs]

/-- Settles O49: the detector's pairs have counts from 1 and stand for the scanned input. -/
theorem rleRoundTrip : Obligations.RleRoundTrip := by
  intro s hfits
  obtain ⟨t, ht, hdone⟩ := exec_rleEnc_done s
  refine ⟨t, ht, fun hd => ?_⟩
  rw [hdone hd]
  refine ⟨legalRunList_serPairs_runPairs _, countTotal_serPairs_runPairs _, fun u hibuf hcapr => ?_⟩
  have hcap : u.cap = s.cap := congrArg BitVec.toNat hcapr
  have hdec := exec_rleDec_of_le (s := u) (hibuf ▸ legalRunList_serPairs_runPairs _)
    (by rw [hibuf, countTotal_serPairs_runPairs, hcap]; exact hfits)
  rwa [hibuf, expansion_serPairs_runPairs] at hdec

/-- A legal RunList of `m` pairs stands for between `m` and `255 * m` bytes. -/
theorem countTotal_bounds {B : Bytes} (h : LegalRunList B) :
    B.length / 2 ≤ countTotal B ∧ countTotal B ≤ 255 * (B.length / 2) := by
  rw [countTotal_eq_sumCounts, ← pairsOf_length]
  exact ⟨length_le_sumCounts ((legalRunList_iff B).1 h).2, sumCounts_le _⟩

/-- Settles O50: both bounds are those of a legal RunList, read from its pairs or from its sum. -/
theorem rleLengthBounds : Obligations.RleLengthBounds := by
  intro s
  constructor
  · obtain ⟨t, ht, hdone⟩ := exec_rleEnc_done s
    refine ⟨t, ht, fun hd => ?_⟩
    obtain ⟨hlow, hhigh⟩ := countTotal_bounds (legalRunList_serPairs_runPairs s.mem.ibuf)
    rw [countTotal_serPairs_runPairs, serPairs_length] at hlow hhigh
    rw [hdone hd, serPairs_length]
    omega
  · by_cases hlegal : LegalRunList s.mem.ibuf
    · rcases Nat.lt_or_ge s.cap (countTotal s.mem.ibuf) with hcap | hcap
      · obtain ⟨t, ht, hf⟩ := exec_rleDec_of_gt hlegal hcap
        exact ⟨t, ht, fun hd => absurd hd hf.not_done⟩
      · obtain ⟨t, ht, hs⟩ := exec_rleDec_of_le hlegal hcap
        refine ⟨t, ht, fun _ => ?_⟩
        rw [hs.obuf, expansion_length]
        exact countTotal_bounds hlegal
    · obtain ⟨t, ht, hf⟩ := exec_rleDec_of_not_legal hlegal
      exact ⟨t, ht, fun hd => absurd hd hf.not_done⟩

end Sys2Proof.Machine

/-! ## The container (43_serializer.md): the header and its index, SER_WR and SER_RD -/

namespace Sys2Proof.Machine

/-! ### The header (R12): packing and unpacking undo each other -/

/-- The four bytes tile the word. -/
theorem unbe32_byteAt (v : Word) : unbe32 (byteAt v 24) (byteAt v 16) (byteAt v 8) (byteAt v 0) = v :=
  calc unbe32 (byteAt v 24) (byteAt v 16) (byteAt v 8) (byteAt v 0)
    _ = v.extractLsb' 16 16 ++ v.extractLsb' 0 16 :=
      congrArg₂ (· ++ ·) (BitVec.extractLsb'_append_extractLsb'_eq_extractLsb' rfl)
        (BitVec.extractLsb'_append_extractLsb'_eq_extractLsb' rfl)
    _ = v.extractLsb' 0 32 := BitVec.extractLsb'_append_extractLsb'_eq_extractLsb' rfl
    _ = v := BitVec.extractLsb'_eq_self

theorem be32_unbe32 (b0 b1 b2 b3 : Byte) : be32 (unbe32 b0 b1 b2 b3) = [b0, b1, b2, b3] := by
  have h0 : byteAt (unbe32 b0 b1 b2 b3) 24 = b0 :=
    (BitVec.extractLsb'_append_eq_of_le (by decide)).trans BitVec.extractLsb'_append_eq_left
  have h1 : byteAt (unbe32 b0 b1 b2 b3) 16 = b1 :=
    (BitVec.extractLsb'_append_eq_of_le (by decide)).trans BitVec.extractLsb'_append_eq_right
  have h2 : byteAt (unbe32 b0 b1 b2 b3) 8 = b2 :=
    (BitVec.extractLsb'_append_eq_of_add_le (by decide)).trans BitVec.extractLsb'_append_eq_left
  have h3 : byteAt (unbe32 b0 b1 b2 b3) 0 = b3 :=
    (BitVec.extractLsb'_append_eq_of_add_le (by decide)).trans BitVec.extractLsb'_append_eq_right
  rw [be32, h0, h1, h2, h3]

/-- Every blob of at least four bytes is the header of some index and a rest (R150). -/
theorem exists_eq_headerBytes_append {X : Bytes} (h : 4 ≤ X.length) : ∃ v B, X = headerBytes v ++ B := by
  match X, h with
  | b0 :: b1 :: b2 :: b3 :: B, _ => exact ⟨unbe32 b0 b1 b2 b3, B, by rw [← be32_eq_headerBytes, be32_unbe32]; rfl⟩

@[simp] theorem headerBytes_length (v : Word) : (headerBytes v).length = 4 := rfl

theorem drop_headerBytes_append (v : Word) (B : Bytes) : (headerBytes v ++ B).drop 4 = B := rfl

@[simp] theorem headerIndex_headerBytes_append (v : Word) (B : Bytes) : headerIndex (headerBytes v ++ B) = v.toNat := by
  rw [← be32_eq_headerBytes]
  exact (unbe32_toNat _ _ _ _).symm.trans (congrArg BitVec.toNat (unbe32_byteAt v))

/-! ### SER_WR (R151, R152) -/

section ExecSerWr

variable {s : State}

theorem exec_serWr_of_le (h : s.mem.ibuf.length + 4 ≤ s.cap) :
    ∃ t, exec .serWr s = .next t ∧ CallSucceeds s t (headerBytes s.idx ++ s.mem.ibuf) s.idx := by
  rw [← be32_eq_headerBytes]
  exact exec_of_unitResult_ok (i := .serWr) (serWrUnit_ok (by omega) s.idx s.work)

theorem exec_serWr_of_gt (h : s.cap < s.mem.ibuf.length + 4) :
    ∃ t, exec .serWr s = .next t ∧ CallFails s t .capacityExceeded :=
  exec_of_unitResult_error (i := .serWr) (serWrUnit_error (by omega) s.idx s.work)

end ExecSerWr

/-- Settles O34: the capacity is the only test, and the header's bytes by shifts are those by division. -/
theorem serWrResult : Obligations.SerWrResult :=
  ⟨rfl, fun _ => ⟨exec_serWr_of_le, exec_serWr_of_gt⟩⟩

/-! ### SER_RD (R154, R156) -/

theorem serRdUnit_of_short {X : Bytes} (h : X.length < 4) (w : Working) : serRdUnit X w = .error .truncatedHeader := by
  obtain ⟨-, hr⟩ | ⟨b0, b1, b2, b3, B, rfl, -⟩ := serRdUnit_cases X w
  · exact hr
  · exact absurd h (by simp)

/-- Behind a whole header only the parity of the rest is tested, and the index is the header's (R154, R156). -/
theorem serRdUnit_headerBytes_append (v : Word) (B : Bytes) (w : Working) :
    serRdUnit (headerBytes v ++ B) w = if B.length % 2 = 1 then .error .truncatedPayload
      else .ok { seq := B, idx := some v, work := { w with stage := .ser } } := by
  conv_rhs => rw [← unbe32_byteAt v]
  rw [← be32_eq_headerBytes]
  rfl

section ExecSerRd

variable {s : State} {v : Word} {B : Bytes}

theorem exec_serRd_of_short (h : s.mem.ibuf.length < 4) :
    ∃ t, exec .serRd s = .next t ∧ CallFails s t .truncatedHeader :=
  exec_of_unitResult_error (i := .serRd) (serRdUnit_of_short h s.work)

theorem exec_serRd_of_odd (hibuf : s.mem.ibuf = headerBytes v ++ B) (hB : B.length % 2 = 1) :
    ∃ t, exec .serRd s = .next t ∧ CallFails s t .truncatedPayload := by
  have hr : unitResult .serRd s = .error .truncatedPayload := by
    rw [unitResult, hibuf, serRdUnit_headerBytes_append, if_pos hB]
  exact exec_of_unitResult_error hr

theorem exec_serRd_of_even (hibuf : s.mem.ibuf = headerBytes v ++ B) (hB : B.length % 2 = 0) :
    ∃ t, exec .serRd s = .next t ∧ CallSucceeds s t B v := by
  have hr : unitResult .serRd s = .ok { seq := B, idx := some v, work := { s.work with stage := .ser } } := by
    rw [unitResult, hibuf, serRdUnit_headerBytes_append, if_neg (by omega)]
  exact exec_of_unitResult_ok hr

end ExecSerRd

/-- Settles O35: a blob is too short for a header, or it is a header and a rest whose parity decides. -/
theorem serRdResult : Obligations.SerRdResult := by
  refine ⟨rfl, fun s => ⟨exec_serRd_of_short, fun hlen hodd => ?_, fun hlen heven => ?_⟩⟩
  · obtain ⟨v, B, hibuf⟩ := exists_eq_headerBytes_append hlen
    exact exec_serRd_of_odd hibuf (by simpa [hibuf] using hodd)
  · obtain ⟨v, B, hibuf⟩ := exists_eq_headerBytes_append hlen
    obtain ⟨t, ht, hs⟩ := exec_serRd_of_even hibuf (by simpa [hibuf] using heven)
    refine ⟨t, ht, ?_⟩
    rw [hibuf, drop_headerBytes_append, headerIndex_headerBytes_append, hs.idx]
    exact ⟨hs, rfl⟩

/-! ### The two undo each other (R155) -/

/-- Settles O51: SER_WR puts the index's header in front of the input, and SER_RD takes the same header off. -/
theorem serializerRoundTrips : Obligations.SerializerRoundTrips := by
  refine fun s => ⟨fun heven hfits => ?_, fun hlen heven hfits => ?_⟩
  · obtain ⟨t, ht, hs⟩ := exec_serWr_of_le hfits
    exact ⟨t, ht, hs.status, fun u hu => exec_serRd_of_even (hu.trans hs.obuf) heven⟩
  · obtain ⟨v, B, hibuf⟩ := exists_eq_headerBytes_append hlen
    have hB : s.mem.ibuf.length = 4 + B.length := by rw [hibuf, List.length_append, headerBytes_length]
    obtain ⟨t, ht, hs⟩ := exec_serRd_of_even hibuf (by omega)
    refine ⟨t, ht, hs.status, fun u hu hidx hcapr => ?_⟩
    rw [hs.obuf] at hu
    rw [hs.idx] at hidx
    have hcap : u.cap = s.cap := congrArg BitVec.toNat hcapr
    have hwr := exec_serWr_of_le (s := u) (by rw [hu, hcap]; omega)
    rwa [hu, hidx, ← hibuf, ← hidx] at hwr

end Sys2Proof.Machine

/-! ## The pipeline (44_pipeline.md): COMPRESS, DECOMPRESS, their round trip, and the stages as a script -/

namespace Sys2Proof.Machine

/-! ### R113's relation fixes the ranks by the bytes and the bytes by the ranks (R117) -/

theorem mtfRun_of_places {T S R : Bytes} (hlen : R.length = S.length)
    (hplace : ∀ i, i < S.length → ((S.take i).foldl toFront T)[(R.getD i 0).toNat]? = some (S.getD i 0)) :
    ∃ T', MtfRun T S R T' := by
  induction S generalizing T R with
  | nil =>
    obtain rfl := List.length_eq_zero_iff.1 hlen
    exact ⟨T, .nil T⟩
  | cons b S ih =>
    obtain ⟨r, R, rfl⟩ := List.exists_cons_of_length_eq_add_one hlen
    obtain ⟨T', hrun⟩ := ih (T := toFront T b) (Nat.succ.inj hlen)
      fun i hi => hplace (i + 1) (Nat.succ_lt_succ hi)
    exact ⟨T', .cons (hplace 0 (Nat.succ_pos _)) hrun⟩

/-- R113's relation says what a run from the identity order makes. -/
theorem isMtf_iff_run {S R : Bytes} : IsMtf S R ↔ ∃ T', MtfRun identityTable S R T' :=
  ⟨fun h => mtfRun_of_places h.length h.place, fun ⟨_, h⟩ => h.isMtf⟩

/-- A place in the table holds one byte. -/
theorem MtfRun.bytes_unique {T S S' R T₁ T₂ : Bytes} (h : MtfRun T S R T₁) (h' : MtfRun T S' R T₂) : S = S' := by
  induction h generalizing S' with
  | nil => cases h'; rfl
  | cons place _ ih =>
    cases h' with
    | cons place' rest' =>
      obtain rfl := Option.some.inj (place.symm.trans place')
      rw [ih rest']

/-- In a table without repeats a byte has one place. -/
theorem MtfRun.ranks_unique {T S R R' T₁ T₂ : Bytes} (hT : T.Nodup) (h : MtfRun T S R T₁) (h' : MtfRun T S R' T₂) :
    R = R' := by
  induction h generalizing R' with
  | nil => cases h'; rfl
  | cons place _ ih =>
    cases h' with
    | cons place' rest' =>
      have hrank := (List.getElem?_inj (List.getElem?_eq_some_iff.1 place).1 hT).1 (place.trans place'.symm)
      rw [BitVec.eq_of_toNat_eq hrank, ih ((toFront_perm (List.mem_of_getElem? place)).nodup_iff.2 hT) rest']

theorem IsMtf.eq_mtfEncLoop {S R : Bytes} (h : IsMtf S R) : R = (mtfEncLoop identityTable S).1 := by
  obtain ⟨_, hrun⟩ := isMtf_iff_run.1 h
  exact hrun.ranks_unique identityTable_nodup (mtfEncLoop_run (.refl _) S)

theorem IsMtf.eq_of_mtfDecLoop {S R : Bytes} {out : Bytes × Bytes} (h : IsMtf S R)
    (hout : mtfDecLoop identityTable R = .ok out) : out.1 = S := by
  obtain ⟨_, hrun⟩ := isMtf_iff_run.1 h
  obtain ⟨out', hout', hrun'⟩ := mtfDecLoop_run (.refl identityTable) R
  cases hout.symm.trans hout'
  exact hrun'.bytes_unique hrun

theorem exists_isMtf_of_ranks (R : Bytes) : ∃ S, IsMtf S R := by
  obtain ⟨out, -, hrun⟩ := mtfDecLoop_run (.refl identityTable) R
  exact ⟨out.1, hrun.isMtf⟩

/-! ### What a stage leaves for the next (R35, R160) -/

/-- The stage's result leaves the sequence `seq` in XBUF and the index `pidx` in PIDX for the next stage (R35). -/
def Delivers (r : Except ErrorKind Handover) (seq : Bytes) (pidx : Word) : Prop :=
  ∃ h, r = .ok h ∧ h.latch.xbuf = seq ∧ h.latch.pidx = pidx

section Delivers

variable {r : Except ErrorKind Handover} {seq seq' : Bytes} {pidx pidx' : Word} {f : Working → Except ErrorKind Handover}

theorem Delivers.thenStage_eq (h : Delivers r seq pidx) : ∃ w, w.xbuf = seq ∧ w.pidx = pidx ∧ thenStage r f = f w := by
  obtain ⟨h, rfl, hseq, hpidx⟩ := h
  exact ⟨h.latch, hseq, hpidx, rfl⟩

theorem Delivers.thenStage (h : Delivers r seq pidx)
    (hf : ∀ w : Working, w.xbuf = seq → w.pidx = pidx → Delivers (f w) seq' pidx') : Delivers (thenStage r f) seq' pidx' := by
  obtain ⟨w, hseq, hpidx, heq⟩ := h.thenStage_eq (f := f)
  exact heq ▸ hf w hseq hpidx

end Delivers

section Units

variable (w : Working) {S L R B : Bytes} {k cap : Nat} {v : Word}

theorem bwtFwdUnit_delivers (hne : S ≠ []) (h : IsBwt S L k) : Delivers (bwtFwdUnit S w) L (BitVec.ofNat 32 k) := by
  obtain ⟨rfl, rfl, -⟩ := h.eq_unit
  exact ⟨_, bwtFwdUnit_ok hne w, rfl, rfl⟩

theorem mtfEncUnit_delivers (h : IsMtf L R) : Delivers (mtfEncUnit L w) R w.pidx :=
  ⟨_, mtfEncUnit_ok L w, h.eq_mtfEncLoop.symm, rfl⟩

theorem rleEncUnit_delivers (h : IsRle R B) (hcap : B.length ≤ cap) : Delivers (rleEncUnit cap R w) B w.pidx := by
  obtain rfl := (isRle_iff R B).1 h
  have hpairs : (rdetScan { w.rdet with held := false } R).2 = runPairs R := rdetScan_closed R rfl rfl
  simp only [rleEncUnit, hpairs, if_neg hcap.not_gt]
  exact ⟨_, rfl, rfl, rfl⟩

theorem rleEncUnit_of_gt (h : IsRle R B) (hcap : cap < B.length) : rleEncUnit cap R w = .error .capacityExceeded := by
  obtain rfl := (isRle_iff R B).1 h
  exact (rleEncUnit_eq cap R w).1 hcap

theorem serRdUnit_delivers (heven : B.length % 2 = 0) : Delivers (serRdUnit (headerBytes v ++ B) w) B v := by
  rw [serRdUnit_headerBytes_append, if_neg (by omega)]
  exact ⟨_, rfl, rfl, rfl⟩

theorem rleDecUnit_delivers (h : LegalRunList B) (hcap : countTotal B ≤ cap) :
    Delivers (rleDecUnit cap B w) (expansion B) w.pidx := by
  rw [rleDecUnit_of_legal h, if_neg hcap.not_gt]
  exact ⟨_, rfl, rfl, rfl⟩

theorem mtfDecUnit_delivers (h : IsMtf L R) : Delivers (mtfDecUnit R w) L w.pidx := by
  obtain ⟨out, hout, -, heq⟩ := mtfDecUnit_ok R w
  exact ⟨_, heq, h.eq_of_mtfDecLoop hout, rfl⟩

end Units

/-! ### COMPRESS (R161) -/

section Compress

variable {S L R B : Bytes} {k cap : Nat} (w : Working)

theorem compressStages_nil : compressStages cap [] w = .error .corruptTransform := rfl

section Images

variable (hne : S ≠ []) (hL : IsBwt S L k) (hR : IsMtf L R) (hB : IsRle R B)
include hne hL hR

/-- The first two stages cannot fail on a non-empty input, and the index passes the second by. -/
theorem bwtMtf_delivers :
    Delivers (thenStage (bwtFwdUnit S w) fun w => mtfEncUnit w.xbuf w) R (BitVec.ofNat 32 k) :=
  (bwtFwdUnit_delivers w hne hL).thenStage fun w hseq hpidx => by
    rw [hseq, ← hpidx]
    exact mtfEncUnit_delivers w hR

include hB

/-- With a RunList that fits, the first three stages succeed, and BWT_FWD's index reaches SER_WR. -/
theorem compressStages_eq_serWrUnit (hcap : B.length ≤ cap) :
    ∃ w', compressStages cap S w = serWrUnit cap (BitVec.ofNat 32 k) B w' := by
  have hrle : Delivers (thenStage (thenStage (bwtFwdUnit S w) fun w => mtfEncUnit w.xbuf w)
      fun w => rleEncUnit cap w.xbuf w) B (BitVec.ofNat 32 k) :=
    (bwtMtf_delivers w hne hL hR).thenStage fun w hseq hpidx => by
      rw [hseq, ← hpidx]
      exact rleEncUnit_delivers w hB hcap
  obtain ⟨w', hseq, hpidx, heq⟩ := hrle.thenStage_eq (f := fun w => serWrUnit cap w.pidx w.xbuf w)
  exact ⟨w', heq.trans (by rw [hseq, hpidx])⟩

theorem compressStages_of_le (hcap : 4 + B.length ≤ cap) :
    ∃ w', compressStages cap S w = .ok ⟨headerBytes (BitVec.ofNat 32 k) ++ B, none, w'⟩ := by
  obtain ⟨w', heq⟩ := compressStages_eq_serWrUnit (cap := cap) w hne hL hR hB (by omega)
  exact ⟨_, by rw [heq, serWrUnit_ok hcap, be32_eq_headerBytes]⟩

/-- RLE_ENC finds a RunList that does not fit, SER_WR a header that does not fit with it: the same kind (R161). -/
theorem compressStages_of_gt (hcap : cap < 4 + B.length) : compressStages cap S w = .error .capacityExceeded := by
  rcases Nat.lt_or_ge cap B.length with hrun | hrun
  · obtain ⟨w', hseq, -, heq⟩ := (bwtMtf_delivers w hne hL hR).thenStage_eq (f := fun w => rleEncUnit cap w.xbuf w)
    have hrle : thenStage (thenStage (bwtFwdUnit S w) fun w => mtfEncUnit w.xbuf w) (fun w => rleEncUnit cap w.xbuf w) =
        .error .capacityExceeded := by rw [heq, hseq, rleEncUnit_of_gt w' hB hrun]
    rw [compressStages, hrle, thenStage_error]
  · obtain ⟨w', heq⟩ := compressStages_eq_serWrUnit (cap := cap) w hne hL hR hB hrun
    rw [heq, serWrUnit_error hcap]

end Images

end Compress

section ExecCompress

variable {s : State} {L R B : Bytes} {k : Nat}

theorem exec_compress_empty (h : s.mem.ibuf = []) : ∃ t, exec .compress s = .next t ∧ CallFails s t .corruptTransform :=
  exec_of_unitResult_error (by rw [unitResult, h, compressStages_nil])

section Images

variable (hne : s.mem.ibuf ≠ []) (hL : IsBwt s.mem.ibuf L k) (hR : IsMtf L R) (hB : IsRle R B)
include hne hL hR hB

theorem exec_compress_of_le (hcap : 4 + B.length ≤ s.cap) :
    ∃ t, exec .compress s = .next t ∧ CallSucceeds s t (headerBytes (BitVec.ofNat 32 k) ++ B) s.idx := by
  obtain ⟨w, hr⟩ := compressStages_of_le s.work hne hL hR hB hcap
  exact exec_of_unitResult_ok (i := .compress) hr

theorem exec_compress_of_gt (hcap : s.cap < 4 + B.length) :
    ∃ t, exec .compress s = .next t ∧ CallFails s t .capacityExceeded :=
  exec_of_unitResult_error (i := .compress) (compressStages_of_gt s.work hne hL hR hB hcap)

end Images

end ExecCompress

/-- Settles O36: the index passes MTF_ENC and RLE_ENC by, and both capacity tests raise the same kind. -/
theorem compressResult : Obligations.CompressResult :=
  ⟨rfl, fun _ => ⟨exec_compress_empty, fun _ _ _ _ hne hL hR hB =>
    ⟨exec_compress_of_le hne hL hR hB, exec_compress_of_gt hne hL hR hB⟩⟩⟩

/-! ### DECOMPRESS (R164, R165) -/

section Decompress

variable {L B : Bytes} {cap : Nat} {v : Word} (w : Working)

theorem decompressStages_of_short {X : Bytes} (h : X.length < 4) :
    decompressStages cap X w = .error .truncatedHeader := by
  simp only [decompressStages, serRdUnit_of_short h, thenStage_error]

theorem decompressStages_of_odd (h : B.length % 2 = 1) :
    decompressStages cap (headerBytes v ++ B) w = .error .truncatedPayload := by
  simp only [decompressStages, serRdUnit_headerBytes_append, if_pos h, thenStage_error]

/-- What RLE_DEC raises on the run region, the call raises. -/
theorem decompressStages_of_rleDecUnit_error (heven : B.length % 2 = 0) {k : ErrorKind}
    (h : ∀ w, rleDecUnit cap B w = .error k) :
    decompressStages cap (headerBytes v ++ B) w = .error k := by
  obtain ⟨w', hseq, -, heq⟩ := (serRdUnit_delivers (v := v) w heven).thenStage_eq (f := fun w => rleDecUnit cap w.xbuf w)
  simp only [decompressStages, heq, hseq, h, thenStage_error]

/-- On a legal run region that fits, the first three stages succeed, and the header's index reaches BWT_INV. -/
theorem decompressStages_eq_bwtInvUnit (hB : LegalRunList B) (hcap : countTotal B ≤ cap) (hL : IsMtf L (expansion B)) :
    ∃ w', decompressStages cap (headerBytes v ++ B) w = bwtInvUnit L v w' := by
  have hmtf : Delivers (thenStage (thenStage (serRdUnit (headerBytes v ++ B) w) fun w => rleDecUnit cap w.xbuf w)
      fun w => mtfDecUnit w.xbuf w) L v := by
    refine ((serRdUnit_delivers w hB.1).thenStage (seq' := expansion B) (pidx' := v) ?rle).thenStage ?mtf <;>
      intro w hseq hpidx <;> rw [hseq, ← hpidx]
    case rle => exact rleDecUnit_delivers w hB hcap
    case mtf => exact mtfDecUnit_delivers w hL
  obtain ⟨w', hseq, hpidx, heq⟩ := hmtf.thenStage_eq (f := fun w => bwtInvUnit w.xbuf w.pidx w)
  exact ⟨w', heq.trans (by rw [hseq, hpidx])⟩

end Decompress

theorem IsMtf.length_of_expansion {L B : Bytes} (h : IsMtf L (expansion B)) : L.length = countTotal B := by
  rw [← h.length, expansion_length]

section ExecDecompress

variable {s : State} {v : Word} {B : Bytes}

theorem exec_decompress_of_short (h : s.mem.ibuf.length < 4) :
    ∃ t, exec .decompress s = .next t ∧ CallFails s t .truncatedHeader :=
  exec_of_unitResult_error (i := .decompress) (decompressStages_of_short s.work h)

section Header

variable (hX : s.mem.ibuf = headerBytes v ++ B)
include hX

theorem exec_decompress_of_error {k : ErrorKind} (h : ∀ w, decompressStages s.cap (headerBytes v ++ B) w = .error k) :
    ∃ t, exec .decompress s = .next t ∧ CallFails s t k :=
  exec_of_unitResult_error (by rw [unitResult, hX, h])

theorem exec_decompress_of_index_ge (hB : LegalRunList B) (hcap : countTotal B ≤ s.cap) (hidx : countTotal B ≤ v.toNat) :
    ∃ t, exec .decompress s = .next t ∧ CallFails s t .corruptTransform := by
  obtain ⟨L, hL⟩ := exists_isMtf_of_ranks (expansion B)
  refine exec_decompress_of_error hX fun w => ?_
  obtain ⟨w', heq⟩ := decompressStages_eq_bwtInvUnit (v := v) w hB hcap hL
  rw [heq, bwtInvUnit_error (by rwa [hL.length_of_expansion])]

theorem exec_decompress_of_index_lt {L : Bytes} {T : List Bytes} (hB : LegalRunList B) (hcap : countTotal B ≤ s.cap)
    (hidx : v.toNat < countTotal B) (hL : IsMtf L (expansion B)) (hT : IsRowTable L L.length T) :
    ∃ t, exec .decompress s = .next t ∧ CallSucceeds s t (T.getD v.toNat []) s.idx := by
  obtain ⟨w', heq⟩ := decompressStages_eq_bwtInvUnit (v := v) s.work hB hcap hL
  rw [bwtInvUnit_ok (by rwa [hL.length_of_expansion]), ← hT.eq_rowTable, ← hX] at heq
  exact exec_of_unitResult_ok (i := .decompress) heq

end Header

end ExecDecompress

/-- Settles O37: a blob is too short for a header, or it is a header and a run region, tested by RLE_DEC and then by BWT_INV. -/
theorem decompressResult : Obligations.DecompressResult := by
  refine ⟨rfl, ?_⟩
  rintro s _ _ rfl rfl
  refine ⟨exec_decompress_of_short, ?_⟩
  rcases Nat.lt_or_ge s.mem.ibuf.length 4 with hshort | hlen
  · have hno : ¬ 4 ≤ s.mem.ibuf.length := hshort.not_ge
    simp only [hno, false_implies, implies_true, and_self]
  obtain ⟨v, B, hX⟩ := exists_eq_headerBytes_append hlen
  have hdrop : s.mem.ibuf.drop 4 = B := by rw [hX, drop_headerBytes_append]
  have hindex : headerIndex s.mem.ibuf = v.toNat := by rw [hX, headerIndex_headerBytes_append]
  rw [hdrop, hindex]
  refine ⟨fun _ hodd => ?_, fun _ heven hzero => ?_, fun _ hB hcap => ?_, fun _ hB hcap hidx => ?_,
    fun L T _ hB hcap hidx hL hT => ?_⟩
  · exact exec_decompress_of_error hX fun w => decompressStages_of_odd w hodd
  · exact exec_decompress_of_error hX fun w => decompressStages_of_rleDecUnit_error w heven
      (rleDecUnit_of_not_legal fun hB => hB.2 hzero)
  · exact exec_decompress_of_error hX fun w => decompressStages_of_rleDecUnit_error w hB.1
      fun w => (rleDecUnit_of_legal hB w).trans (if_pos hcap)
  · exact exec_decompress_of_index_ge hX hB hcap hidx
  · exact exec_decompress_of_index_lt hX hB hcap hidx hL hT

/-! ### The round trip (R167) -/

section Images

variable {S L R B : Bytes} {k : Nat}

/-- The row that the primary index names is the sequence (R101). -/
theorem IsBwt.rowTable_getD (h : IsBwt S L k) : (rowTable L L.length).getD k [] = S := by
  have hlen : L.length = S.length := h.perm.length_eq
  obtain ⟨P, hP, rfl, hk, h0⟩ := h
  rw [hlen, rowTable_forward_image hP, List.getD_eq_getElem _ _ (by simpa using hk), List.getElem_map,
    ← List.getD_eq_getElem P 0 hk, h0, rotation_zero]

theorem IsRle.legal (h : IsRle R B) : LegalRunList B := by
  rw [(isRle_iff R B).1 h]
  exact legalRunList_serPairs_runPairs R

theorem IsRle.countTotal_eq (h : IsRle R B) : countTotal B = R.length := by
  rw [(isRle_iff R B).1 h, countTotal_serPairs_runPairs]

theorem IsRle.expansion_eq (h : IsRle R B) : expansion B = R := by
  rw [(isRle_iff R B).1 h, expansion_serPairs_runPairs]

/-- A run of one byte gives two bytes (R141). -/
theorem IsRle.length_le (h : IsRle R B) : B.length ≤ 2 * R.length := by
  have hlow : B.length / 2 ≤ countTotal B := (countTotal_bounds h.legal).1
  have heven : B.length % 2 = 0 := h.legal.1
  rw [h.countTotal_eq] at hlow
  omega

/-- Every non-empty sequence has its images under the four stages' relations. -/
theorem exists_images (hne : S ≠ []) : ∃ L k R B, IsBwt S L k ∧ IsMtf L R ∧ IsRle R B ∧ R.length = S.length := by
  obtain ⟨L, k, hL⟩ := exists_isBwt hne
  have hR : IsMtf L (mtfEncLoop identityTable L).1 := (mtfEncLoop_run (.refl _) L).isMtf
  exact ⟨L, k, _, _, hL, hR, (isRle_iff _ _).2 rfl, hR.length.trans hL.perm.length_eq⟩

end Images

/-- DECOMPRESS of the container of a sequence's images. -/
theorem exec_decompress_of_images {u : State} {S L R B : Bytes} {v : Word} (hL : IsBwt S L v.toNat) (hR : IsMtf L R)
    (hB : IsRle R B) (hX : u.mem.ibuf = headerBytes v ++ B) (hcap : S.length ≤ u.cap) :
    ∃ t, exec .decompress u = .next t ∧ CallSucceeds u t S u.idx := by
  have hcount : countTotal B = S.length := by rw [hB.countTotal_eq, hR.length, hL.perm.length_eq]
  obtain ⟨-, -, hv⟩ := hL.eq_unit
  have hdec := exec_decompress_of_index_lt hX hB.legal (hcount.trans_le hcap) (hv.trans_eq hcount.symm)
    (hB.expansion_eq.symm ▸ hR) (rowTable_isRowTable L L.length)
  rwa [hL.rowTable_getD] at hdec

/-- Settles O52: each stage of DECOMPRESS takes the image that the matching stage of COMPRESS made. -/
theorem compressDecompressRoundTrip : Obligations.CompressDecompressRoundTrip := by
  intro s hne hcap
  obtain ⟨L, k, R, B, hL, hR, hB, hlen⟩ := exists_images hne
  rcases Nat.lt_or_ge s.cap (4 + B.length) with hgt | hle
  · obtain ⟨t, ht, hf⟩ := exec_compress_of_gt hne hL hR hB hgt
    refine ⟨t, ht, fun hsmall => ?_, fun hd => absurd hd hf.not_done⟩
    have hB2 : B.length ≤ 2 * R.length := hB.length_le
    omega
  · obtain ⟨t, ht, hs⟩ := exec_compress_of_le hne hL hR hB hle
    refine ⟨t, ht, fun _ => hs.status, fun _ u hibuf hcapr => ?_⟩
    have hucap : u.cap = s.cap := congrArg BitVec.toNat hcapr
    exact exec_decompress_of_images ((hL.index_toNat hcap).symm ▸ hL) hR hB (hibuf.trans hs.obuf) (hucap ▸ hcap)

/-! ### Runs of the machine (R180) -/

/-- A run of one step more begins with a step that answers a next state. -/
theorem coreRun_succ_iff {M : Host.Core} {s u : M.State} {n : Nat} :
    M.run (n + 1) s = .next u ↔ ∃ t, M.step s = .next t ∧ M.run n t = .next u := by
  rw [Host.Core.run]
  cases M.step s <;> simp

/-- The machine's run of `n` steps from `s` ends in `t`. -/
def Runs (s : State) (n : Nat) (t : State) : Prop := Sys2Proof.core.run n s = .next t

theorem runs_zero_iff {s t : State} : Runs s 0 t ↔ s = t := Host.Outcome.next.injEq s t ▸ Iff.rfl

theorem runs_succ_iff {s u : State} {n : Nat} : Runs s (n + 1) u ↔ ∃ t, step s = .next t ∧ Runs t n u :=
  coreRun_succ_iff (M := Sys2Proof.core)

theorem Runs.trans {s t u : State} {m n : Nat} (hst : Runs s m t) (htu : Runs t n u) : Runs s (m + n) u := by
  induction m generalizing s with
  | zero =>
    obtain rfl := runs_zero_iff.1 hst
    rwa [Nat.zero_add]
  | succ m ih =>
    obtain ⟨s', hstep, hrun⟩ := runs_succ_iff.1 hst
    rw [Nat.add_right_comm]
    exact runs_succ_iff.2 ⟨s', hstep, ih hrun⟩

/-- The turn at the head of the schedule is one step. -/
theorem Runs.of_event {s t : State} {e : Event} {rest : List Event} (h : s.agenda = e :: rest)
    (he : eventStep e { s with agenda := rest } = .next t) : Runs s 1 t :=
  runs_succ_iff.2 ⟨t, by rw [step, takeTurn, h]; exact he, runs_zero_iff.2 rfl⟩

/-! ### Turns -/

/-- The operands of a call (R85) and the capacity. -/
structure Operands (s : State) (input : Bytes) (idx capr : Word) : Prop where
  ibuf : s.mem.ibuf = input
  idx : s.idx = idx
  capr : s.capr = capr

/-- The host may start a call on these operands, and these turns come next. -/
structure Ready (s : State) (input : Bytes) (idx capr : Word) (turns : List Event) : Prop
    extends Operands s input idx capr where
  not_busy : s.status ≠ .busy
  agenda : s.agenda = turns

theorem runs_load {s : State} {seq : Bytes} {rest : List Event} (h : s.agenda = .host (.load seq) :: rest)
    (hs : s.status ≠ .busy) (hcap : seq.length ≤ s.cap) : ∃ t, Runs s 1 t ∧ Ready t seq s.idx s.capr rest :=
  ⟨_, .of_event h ((if_neg hs).trans (if_neg hcap.not_gt)), ⟨rfl, rfl, rfl⟩, hs, rfl⟩

/-- A poll of STATUS is accepted in every state, and only its reply is new (R31, R188). -/
theorem runs_poll {s : State} {rest : List Event} (h : s.agenda = .host (.readReg 1) :: rest) :
    Runs s 1 (answer (.register s.statusWord) { s with agenda := rest }) :=
  .of_event h (if_neg fun hb => nomatch hb.2)

theorem runs_polls {s : State} {n : Nat} {rest : List Event}
    (h : s.agenda = List.replicate n (.host (.readReg 1)) ++ rest) :
    ∃ replies, Runs s n { s with agenda := rest, replies := replies } := by
  induction n generalizing s with
  | zero =>
    obtain rfl : s.agenda = rest := h
    exact ⟨s.replies, rfl⟩
  | succ n ih =>
    obtain ⟨replies, hrun⟩ := ih (s := answer (.register s.statusWord)
      { s with agenda := List.replicate n (.host (.readReg 1)) ++ rest }) rfl
    exact ⟨replies, Nat.add_comm 1 n ▸ (runs_poll h).trans hrun⟩

theorem runs_read {s : State} {rest : List Event} (h : s.agenda = .host .readOut :: rest) (hs : s.status ≠ .busy) :
    ∃ t, Runs s 1 t ∧ SameResult t s ∧ t.replies.head? = some (.sequence s.mem.obuf) :=
  ⟨_, .of_event h (if_neg hs), ⟨rfl, rfl, rfl, rfl⟩, rfl⟩

/-- XFER and the load that it schedules (R84). -/
theorem runs_xfer {s : State} {rest : List Event} (h : s.agenda = .xfer :: rest) (hs : s.status = .done)
    (hcap : s.mem.obuf.length ≤ s.cap) : ∃ t, Runs s 2 t ∧ Ready t s.mem.obuf s.idx s.capr rest := by
  have hxfer : Runs s 1 (answer (.sequence s.mem.obuf) { s with agenda := .host (.load s.mem.obuf) :: rest }) :=
    .of_event h (if_pos hs)
  obtain ⟨t, hload, ht⟩ := runs_load (s := answer (.sequence s.mem.obuf)
    { s with agenda := .host (.load s.mem.obuf) :: rest }) rfl (by simp [hs]) hcap
  exact ⟨t, hxfer.trans hload, ht⟩

/-- After `n` steps a call has succeeded with the output `out`, and the host has read it (R187). -/
def ReadsOutput (s : State) (n : Nat) (out : Bytes) : Prop :=
  ∃ t, Runs s n t ∧ t.status = .done ∧ t.mem.obuf = out ∧ t.replies.head? = some (.sequence out)

/-- After `n` steps a call has failed with the kind `k`. -/
def EndsInError (s : State) (n : Nat) (k : ErrorKind) : Prop := ∃ t, Runs s n t ∧ t.status = .error ∧ t.err = k

theorem Runs.readsOutput {s t : State} {m n : Nat} {out : Bytes} (h : Runs s m t) :
    ReadsOutput t n out → ReadsOutput s (m + n) out :=
  fun ⟨u, hu, hend⟩ => ⟨u, h.trans hu, hend⟩

theorem Runs.endsInError {s t : State} {m n : Nat} {k : ErrorKind} (h : Runs s m t) :
    EndsInError t n k → EndsInError s (m + n) k :=
  fun ⟨u, hu, hend⟩ => ⟨u, h.trans hu, hend⟩

/-! ### A call -/

theorem complete_agenda (r : Except ErrorKind Handover) (s : State) : (complete r s).agenda = s.agenda := by
  cases r <;> rfl

/-- The core's turn on a running call of a command's own word is that command (R184). -/
theorem coreTurn_of_encode {s : State} {i : Instr} (hb : s.status = .busy) (hlcmd : s.lcmd = opcField (encode i))
    (hlill : s.lill = illegalWord (encode i)) : coreTurn s = exec i s := by
  have hdecode : decode (encode i) = .ok i := (decode_eq_ok_iff_eq_encode _ i).2 rfl
  refine coreTurn_of_command hb ?_ (hlcmd ▸ decodeLatch_opcField hdecode)
  rw [hlill, illegalWord_eq_false_iff]
  exact ⟨i, hdecode⟩

/-- The turns of `START` and `WAIT` (R82), and those after them. -/
def callTurns (polls : Nat) (i : Instr) (rest : List Event) : List Event :=
  .host (.start (encode i)) :: (waitEvents polls ++ rest)

section Call

variable {s : State} {i : Instr} {polls : Nat} {input out : Bytes} {idx idx' capr : Word} {rest : List Event}

theorem runs_start (w : Word) (h : s.agenda = .host (.start w) :: rest) (hs : s.status ≠ .busy) :
    Runs s 1 (startCall w { s with agenda := rest }) :=
  .of_event h (hostStep_start_of_not_busy w hs)

section Running

variable (hb : s.status = .busy) (hlcmd : s.lcmd = opcField (encode i)) (hlill : s.lill = illegalWord (encode i))
include hb hlcmd hlill

/-- The core's turn is the command's execution on the operands it finds (R184). -/
theorem runs_core (h : s.agenda = .core :: rest) :
    ∃ u v, Operands u s.mem.ibuf s.idx s.capr ∧ exec i u = .next v ∧ Runs s 1 v ∧ v.agenda = rest :=
  have hturn : coreTurn { s with agenda := rest } = .next _ :=
    (coreTurn_of_encode (s := { s with agenda := rest }) hb hlcmd hlill).trans (exec_eq_complete i _)
  ⟨{ s with agenda := rest }, _, ⟨rfl, rfl, rfl⟩, exec_eq_complete i _, .of_event h hturn, complete_agenda _ _⟩

/-- `WAIT` with any number of polls ends after the core's turn (log 13). -/
theorem runs_wait (h : s.agenda = waitEvents polls ++ rest) :
    ∃ u v t, Operands u s.mem.ibuf s.idx s.capr ∧ exec i u = .next v ∧ Runs s (polls + 2) t ∧ SameResult t v ∧
      t.capr = v.capr ∧ t.agenda = rest := by
  obtain ⟨replies, hpolls⟩ := runs_polls (h.trans (List.append_assoc ..))
  obtain ⟨u, v, hu, hv, hcore, hagenda⟩ :=
    runs_core (s := { s with agenda := .core :: .host (.readReg 1) :: rest, replies := replies }) hb hlcmd hlill rfl
  exact ⟨u, v, _, hu, hv, hpolls.trans (hcore.trans (runs_poll hagenda)), ⟨rfl, rfl, rfl, rfl⟩, rfl, rfl⟩

end Running

/-- `START` and `WAIT` are the command's execution on the operands that stand at START. -/
theorem runs_call (h : Ready s input idx capr (callTurns polls i rest)) :
    ∃ u v t, Operands u input idx capr ∧ exec i u = .next v ∧ Runs s (polls + 3) t ∧ SameResult t v ∧
      t.capr = v.capr ∧ t.agenda = rest := by
  obtain ⟨⟨rfl, rfl, rfl⟩, hs, hagenda⟩ := h
  have hstart := runs_start (encode i) hagenda hs
  obtain ⟨u, v, t, hu, hv, hwait, ht⟩ :=
    runs_wait (s := startCall (encode i) { s with agenda := waitEvents polls ++ rest }) rfl rfl rfl rfl
  exact ⟨u, v, t, hu, hv, by simpa only [Nat.add_comm 1] using hstart.trans hwait, ht⟩

section Failure

variable {k : ErrorKind} (hexec : ∀ u, Operands u input idx capr → ∃ v, exec i u = .next v ∧ CallFails u v k)
include hexec

theorem runs_call_of_fails (h : Ready s input idx capr (callTurns polls i rest)) :
    ∃ t, Runs s (polls + 3) t ∧ t.status = .error ∧ t.err = k ∧ t.agenda = rest := by
  obtain ⟨u, v, t, hu, hv, hrun, ht, -, hagenda⟩ := runs_call h
  obtain ⟨v', hv', hf⟩ := hexec u hu
  cases hv.symm.trans hv'
  exact ⟨t, hrun, ht.status.trans hf.status, ht.err.trans hf.err, hagenda⟩

theorem call_endsInError (h : Ready s input idx capr (callTurns polls i rest)) : EndsInError s (polls + 3) k := by
  obtain ⟨t, hrun, hstatus, herr, -⟩ := runs_call_of_fails hexec h
  exact ⟨t, hrun, hstatus, herr⟩

/-- A READ after a failed call is accepted and leaves the error (R187). -/
theorem callRead_endsInError (h : Ready s input idx capr (callTurns polls i (.host .readOut :: rest))) :
    EndsInError s (polls + 4) k := by
  obtain ⟨t, hcall, hstatus, herr, hagenda⟩ := runs_call_of_fails hexec h
  obtain ⟨u, hread, hu, -⟩ := runs_read hagenda (by simp [hstatus])
  exact ⟨u, hcall.trans hread, hu.status.trans hstatus, hu.err.trans herr⟩

end Failure

section Success

variable (hexec : ∀ u, Operands u input idx capr → ∃ v, exec i u = .next v ∧ CallSucceeds u v out idx')
include hexec

theorem runs_call_of_succeeds (h : Ready s input idx capr (callTurns polls i rest)) :
    ∃ t, Runs s (polls + 3) t ∧ t.status = .done ∧ t.mem.obuf = out ∧ t.idx = idx' ∧ t.capr = capr ∧ t.agenda = rest := by
  obtain ⟨u, v, t, hu, hv, hrun, ht, hcapr, hagenda⟩ := runs_call h
  obtain ⟨v', hv', hs⟩ := hexec u hu
  cases hv.symm.trans hv'
  exact ⟨t, hrun, ht.status.trans hs.status, ht.mem ▸ hs.obuf, ht.idx.trans hs.idx,
    hcapr.trans (hs.capr.trans hu.capr), hagenda⟩

/-- A command that succeeds and the XFER behind it: its output stands where the next command reads it (R84). -/
theorem runs_call_xfer (h : Ready s input idx capr (callTurns polls i (.xfer :: rest))) (hout : out.length ≤ capr.toNat) :
    ∃ t, Runs s (polls + 5) t ∧ Ready t out idx' capr rest := by
  obtain ⟨t, hcall, hdone, rfl, rfl, rfl, hagenda⟩ := runs_call_of_succeeds hexec h
  obtain ⟨u, hxfer, hu⟩ := runs_xfer hagenda hdone hout
  exact ⟨u, hcall.trans hxfer, hu⟩

theorem callRead_readsOutput (h : Ready s input idx capr (callTurns polls i (.host .readOut :: rest))) :
    ReadsOutput s (polls + 4) out := by
  obtain ⟨t, hcall, hdone, rfl, -, -, hagenda⟩ := runs_call_of_succeeds hexec h
  obtain ⟨u, hread, hu, hreply⟩ := runs_read hagenda (by simp [hdone])
  exact ⟨u, hcall.trans hread, hu.status.trans hdone, congrArg Memory.obuf hu.mem, hreply⟩

end Success

end Call

/-! ### The four stage commands in sequence (R162) -/

theorem exec_mtfEnc_of_isMtf {s : State} {R : Bytes} (h : IsMtf s.mem.ibuf R) :
    ∃ t, exec .mtfEnc s = .next t ∧ CallSucceeds s t R s.idx := by
  rw [h.eq_mtfEncLoop]
  exact exec_of_unitResult_ok (i := .mtfEnc) (mtfEncUnit_ok s.mem.ibuf s.work)

section StageTurns

variable {s : State} {polls k : Nat} {S L R B : Bytes} {idx capr : Word} {rest : List Event}

/-- The last two stage commands and the READ. -/
def rleSerTurns (polls : Nat) : List Event := callTurns polls .rleEnc (.xfer :: callTurns polls .serWr [.host .readOut])

/-- The four stage commands and the READ. -/
def stageTurns (polls : Nat) : List Event :=
  callTurns polls .bwtFwd (.xfer :: callTurns polls .mtfEnc (.xfer :: rleSerTurns polls))

/-- The first two stage commands; IDX keeps the primary index from here to SER_WR. -/
theorem runs_bwtMtf (hne : S ≠ []) (hL : IsBwt S L k) (hR : IsMtf L R) (hcap : S.length ≤ capr.toNat)
    (h : Ready s S idx capr (stageTurns polls)) :
    ∃ t, Runs s (polls + 5 + (polls + 5)) t ∧ Ready t R (BitVec.ofNat 32 k) capr (rleSerTurns polls) := by
  have hLlen : L.length = S.length := hL.perm.length_eq
  have hbwt : ∀ u, Operands u S idx capr → ∃ v, exec .bwtFwd u = .next v ∧ CallSucceeds u v L (BitVec.ofNat 32 k) := by
    rintro u ⟨rfl, rfl, rfl⟩
    exact exec_bwtFwd_of_isBwt hne hL
  obtain ⟨t, hrun, ht⟩ := runs_call_xfer hbwt h (hLlen.trans_le hcap)
  have hmtf : ∀ u, Operands u L (BitVec.ofNat 32 k) capr →
      ∃ v, exec .mtfEnc u = .next v ∧ CallSucceeds u v R (BitVec.ofNat 32 k) := by
    rintro u ⟨rfl, hidx, rfl⟩
    exact hidx ▸ exec_mtfEnc_of_isMtf hR
  obtain ⟨u, hrun', hu⟩ := runs_call_xfer hmtf ht ((hR.length.trans hLlen).trans_le hcap)
  exact ⟨u, hrun.trans hrun', hu⟩

section RleSer

variable (hB : IsRle R B) (h : Ready s R idx capr (rleSerTurns polls))
include hB h

theorem runs_rleXfer (hcap : B.length ≤ capr.toNat) :
    ∃ t, Runs s (polls + 5) t ∧ Ready t B idx capr (callTurns polls .serWr [.host .readOut]) := by
  refine runs_call_xfer ?_ h hcap
  rintro u ⟨rfl, rfl, rfl⟩
  exact (rleEncResult.2 u B hB).1 hcap

theorem rleSer_readsOutput (hcap : 4 + B.length ≤ capr.toNat) :
    ReadsOutput s (polls + 5 + (polls + 4)) (headerBytes idx ++ B) := by
  obtain ⟨t, hrun, ht⟩ := runs_rleXfer hB h (by omega)
  refine hrun.readsOutput (callRead_readsOutput (idx' := idx) ?_ ht)
  rintro u ⟨rfl, rfl, rfl⟩
  exact exec_serWr_of_le ((Nat.add_comm ..).trans_le hcap)

/-- A RunList that does not fit fails in RLE_ENC, one that fits without its header in SER_WR. -/
theorem rleSer_endsInError (hcap : capr.toNat < 4 + B.length) :
    ∃ m, 3 ≤ m ∧ EndsInError s m .capacityExceeded := by
  rcases Nat.lt_or_ge capr.toNat B.length with hrun | hrun
  · refine ⟨polls + 3, by omega, call_endsInError ?_ h⟩
    rintro u ⟨rfl, rfl, rfl⟩
    exact (rleEncResult.2 u B hB).2 hrun
  · obtain ⟨t, hrle, ht⟩ := runs_rleXfer hB h hrun
    refine ⟨polls + 5 + (polls + 3), by omega, hrle.endsInError (call_endsInError ?_ ht)⟩
    rintro u ⟨rfl, rfl, rfl⟩
    exact exec_serWr_of_gt (hcap.trans_eq (Nat.add_comm ..))

end RleSer

theorem stages_of_empty (h : Ready s [] idx capr (stageTurns polls)) : EndsInError s (polls + 3) .corruptTransform :=
  call_endsInError (fun _ hu => exec_bwtFwd_empty hu.ibuf) h

theorem compress_of_empty (h : Ready s [] idx capr (callTurns polls .compress [.host .readOut])) :
    EndsInError s (polls + 4) .corruptTransform :=
  callRead_endsInError (fun _ hu => exec_compress_empty hu.ibuf) h

end StageTurns

/-! ### The two scripts (R162) -/

theorem compressScript_events (polls : Nat) (S : Bytes) : scriptEvents polls (compressScript S) =
    .host (.load S) :: callTurns polls .compress [.host .readOut] := rfl

theorem stageScript_events (polls : Nat) (S : Bytes) :
    scriptEvents polls (stageScript S) = .host (.load S) :: stageTurns polls := rfl

theorem callTurns_length (polls : Nat) (i : Instr) (rest : List Event) :
    (callTurns polls i rest).length = polls + 3 + rest.length := by
  simp [callTurns, waitEvents]
  omega

theorem compressScript_length (polls : Nat) (S : Bytes) :
    (scriptEvents polls (compressScript S)).length = 1 + (polls + 4) := by
  simp [compressScript_events, callTurns_length]
  omega

/-- Each XFER is one turn of the schedule and two steps. -/
theorem stageScript_steps (polls : Nat) (S : Bytes) : (scriptEvents polls (stageScript S)).length + 3 =
    1 + (polls + 5 + (polls + 5) + (polls + 5 + (polls + 4))) := by
  simp [stageScript_events, stageTurns, rleSerTurns, callTurns_length]
  omega

/-- From an input loaded twice, COMPRESS and the four stage commands read the same output or fail with the same kind. -/
theorem compress_same_as_stages {c g : State} {polls : Nat} {S : Bytes} {idx capr : Word}
    (hc : Ready c S idx capr (callTurns polls .compress [.host .readOut]))
    (hg : Ready g S idx capr (stageTurns polls)) (hcap : S.length ≤ capr.toNat) :
    (∃ out, ReadsOutput c (polls + 4) out ∧ ReadsOutput g (polls + 5 + (polls + 5) + (polls + 5 + (polls + 4))) out) ∨
    ∃ k m, 3 ≤ m ∧ EndsInError c (polls + 4) k ∧ EndsInError g m k := by
  by_cases hS : S = []
  · subst hS
    exact .inr ⟨_, _, by omega, compress_of_empty hc, stages_of_empty hg⟩
  · obtain ⟨L, k, R, B, hL, hR, hB, -⟩ := exists_images hS
    obtain ⟨t, hrun, ht⟩ := runs_bwtMtf hS hL hR hcap hg
    rcases Nat.lt_or_ge capr.toNat (4 + B.length) with hgt | hle
    · obtain ⟨m, hm, herr⟩ := rleSer_endsInError hB ht hgt
      refine .inr ⟨_, _, by omega, callRead_endsInError ?_ hc, hrun.endsInError herr⟩
      rintro u ⟨rfl, rfl, rfl⟩
      exact exec_compress_of_gt hS hL hR hB hgt
    · refine .inl ⟨_, callRead_readsOutput (idx' := idx) ?_ hc, hrun.readsOutput (rleSer_readsOutput hB ht hle)⟩
      rintro u ⟨rfl, rfl, rfl⟩
      exact exec_compress_of_le hS hL hR hB hle

/-- Settles O55: both scripts load the input, and what follows reads the same output or fails with the same kind. -/
theorem compressEqualsStages : Obligations.CompressEqualsStages := by
  intro s polls S hs hcap
  obtain ⟨c, hloadc, hc⟩ := runs_load (s := { s with agenda := scriptEvents polls (compressScript S) })
    (compressScript_events polls S) hs hcap
  obtain ⟨g, hloadg, hg⟩ := runs_load (s := { s with agenda := scriptEvents polls (stageScript S) })
    (stageScript_events polls S) hs hcap
  rw [compressScript_length, stageScript_steps]
  rcases compress_same_as_stages hc hg hcap with ⟨out, hcout, hgout⟩ | ⟨k, m, hm, hcerr, hgerr⟩
  · obtain ⟨t, hrun, hdone, hobuf, hreply⟩ := hloadc.readsOutput hcout
    obtain ⟨u, hrun', hdone', hobuf', hreply'⟩ := hloadg.readsOutput hgout
    refine ⟨t, hrun, fun _ => ⟨u, hrun', hdone', hobuf'.trans hobuf.symm, hreply'.trans hreply.symm⟩, ?_, .inl hdone⟩
    exact fun herror => absurd (hdone.symm.trans herror) (by decide)
  · obtain ⟨t, hrun, herror, hkind⟩ := hloadc.endsInError hcerr
    obtain ⟨u, hrun', herror', hkind'⟩ := hloadg.endsInError hgerr
    refine ⟨t, hrun, ?_, fun _ => ⟨1 + m, u, by omega, hrun', herror', hkind'.trans hkind.symm⟩, .inr herror⟩
    exact fun hdone => absurd (herror.symm.trans hdone) (by decide)

end Sys2Proof.Machine

/-! ## The host interface (45_host_interface.md): LOAD, SETIDX and START, and the completion of a started call -/

namespace Sys2Proof.Machine

/-! ### H_LOAD and H_START (R181, R183) -/

theorem hostStep_load_of_fits {s : State} {seq : Bytes} (hs : s.status ≠ .busy) (hcap : seq.length ≤ s.cap) :
    hostStep (.load seq) s = .next { s with mem := ⟨seq, s.mem.obuf⟩ } :=
  (if_neg hs).trans (if_neg hcap.not_gt)

theorem hostStep_load_refused {s : State} {seq : Bytes} (h : s.status = .busy ∨ s.cap < seq.length) :
    ∃ r, hostStep (.load seq) s = .refused r := by
  by_cases hs : s.status = .busy
  · exact ⟨_, if_pos hs⟩
  · exact ⟨_, (if_neg hs).trans (if_pos (h.resolve_left hs))⟩

/-- ILEN is exact for an input that fits the capacity (R22, R7). -/
theorem State.ilen_toNat {s : State} (h : s.mem.ibuf.length ≤ s.cap) : s.ilen.toNat = s.mem.ibuf.length :=
  Nat.mod_eq_of_lt (h.trans_lt s.capr.isLt)

/-- LILL is set for the words that are none of the ten (R72, R183). -/
theorem illegalWord_eq_true_iff (w : Word) : illegalWord w = true ↔ ¬ ∃ i, w = encode i := by
  simp only [← decode_eq_ok_iff_eq_encode, ← illegalWord_eq_false_iff, Bool.not_eq_false]

/-- Settles O6: the two tests of a load, and the capacity is a register's value. -/
theorem loadSetsInput : Obligations.LoadSetsInput :=
  fun _ _ => ⟨hostStep_load_refused, fun hs hcap => ⟨_, hostStep_load_of_fits hs hcap, rfl, State.ilen_toNat hcap, rfl⟩⟩

/-- Settles O9: STATE is the only test. -/
theorem setIdxSetsIndex : Obligations.SetIdxSetsIndex :=
  fun _ _ => ⟨fun hs => ⟨.blockBusy, if_pos hs⟩, fun hs => if_neg hs⟩

/-- Settles O10: the fields of `startCall`; its two latches are the word modulo 16 and the decoder's verdict. -/
theorem startLatchesCommand : Obligations.StartLatchesCommand := by
  refine fun s w => ⟨fun hs => ⟨.blockBusy, if_pos hs⟩, fun hs => ⟨startCall w s, hostStep_start_of_not_busy w hs, ?_⟩⟩
  exact ⟨rfl, opcField_toNat w, illegalWord_eq_true_iff w, rfl, rfl, rfl, rfl, rfl, rfl, rfl, rfl, rfl, rfl, rfl⟩

/-! ### The turns, one equation for each agent (R180) -/

theorem step_of_empty {s : State} (h : s.agenda = []) : step s = coreTurn s := by
  rw [step, takeTurn, h]

theorem step_of_event {s : State} {e : Event} {rest : List Event} (h : s.agenda = e :: rest) :
    step s = eventStep e { s with agenda := rest } := by
  rw [step, takeTurn, h]

/-- The core does nothing while no call runs (R60, log 7). -/
theorem coreTurn_of_not_busy {s : State} (h : s.status ≠ .busy) : coreTurn s = .next s :=
  if_neg h

/-- The core's turn on a running call of any word, legal or not, completes it (R184, R205). -/
theorem coreTurn_of_latched {s : State} {w : Word} (hb : s.status = .busy)
    (h : s.lcmd = opcField w ∧ s.lill = illegalWord w) : ∃ r, coreTurn s = .next (complete r s) := by
  obtain ⟨hlcmd, hlill⟩ := h
  cases hw : illegalWord w with
  | true => exact ⟨.error .illegalCommand, coreTurn_of_illegal hb (hlill.trans hw)⟩
  | false =>
    obtain ⟨i, -, hi⟩ := decodeLatch_of_legal hw
    exact ⟨unitResult i s, (coreTurn_of_command hb (hlill.trans hw) (hlcmd ▸ hi)).trans (exec_eq_complete i s)⟩

/-! ### No step faults: the core's fault needs latches that the invariant excludes (log 9) -/

/-- The schedule is the environment's, and the invariant does not speak of it. -/
theorem State.Inv.withAgenda {s : State} (h : s.Inv) (agenda : List Event) : ({ s with agenda := agenda } : State).Inv :=
  { h with }

theorem State.Inv.coreTurn_next {s : State} (h : s.Inv) : ∃ t, coreTurn s = .next t := by
  by_cases hb : s.status = .busy
  · obtain ⟨r, hr⟩ := coreTurn_of_latched hb (h.latched hb)
    exact ⟨_, hr⟩
  · exact ⟨s, coreTurn_of_not_busy hb⟩

theorem hostStart_ne_fault (w : Word) (s : State) (f : Fault) : hostStart w s ≠ .fault f := by
  unfold hostStart
  split <;> nofun

theorem hostSetIdx_ne_fault (v : Word) (s : State) (f : Fault) : hostSetIdx v s ≠ .fault f := by
  unfold hostSetIdx
  split <;> nofun

/-- A host transaction is accepted or refused (R190, log 8). -/
theorem hostStep_ne_fault (t : Transaction) (s : State) (f : Fault) : hostStep t s ≠ .fault f := by
  cases t with
  | load seq =>
    simp only [hostStep, hostLoad]
    split_ifs <;> nofun
  | setIdx v => exact hostSetIdx_ne_fault v s f
  | start w => exact hostStart_ne_fault w s f
  | readOut =>
    simp only [hostStep, hostReadOut]
    split <;> nofun
  | readReg reg =>
    simp only [hostStep, hostReadReg]
    split
    · nofun
    · split <;> nofun
  | writeReg reg v =>
    simp only [hostStep, hostWriteReg]
    split
    · exact hostStart_ne_fault v s f
    · exact hostSetIdx_ne_fault v s f
    all_goals nofun
  | readObuf off =>
    simp only [hostStep, hostReadObuf]
    split
    · nofun
    · split <;> nofun
  | readIbuf off => nofun

theorem hostXfer_ne_fault (s : State) (f : Fault) : hostXfer s ≠ .fault f := by
  unfold hostXfer
  split <;> nofun

section Turns

variable {s : State} {rest : List Event} (h : s.Inv)
include h

theorem State.Inv.step_next_of_empty (ha : s.agenda = []) : ∃ t, step s = .next t :=
  step_of_empty ha ▸ h.coreTurn_next

theorem State.Inv.step_next_of_core (ha : s.agenda = .core :: rest) : ∃ t, step s = .next t :=
  step_of_event ha ▸ (h.withAgenda rest).coreTurn_next

theorem State.Inv.step_ne_fault (f : Fault) : step s ≠ .fault f := by
  have ne_of_next : (∃ t, step s = .next t) → step s ≠ .fault f := fun ⟨t, ht⟩ => ht ▸ nofun
  cases ha : s.agenda with
  | nil => exact ne_of_next (h.step_next_of_empty ha)
  | cons e rest =>
    cases e with
    | host t => exact step_of_event ha ▸ hostStep_ne_fault t _ f
    | core => exact ne_of_next (h.step_next_of_core ha)
    | reset => exact ne_of_next ⟨_, step_of_event ha⟩
    | xfer => exact step_of_event ha ▸ hostXfer_ne_fault _ f

end Turns

/-- Settles O58: only the core's turn could fault, and a running call's latches are those of its own command word. -/
theorem coreAndResetNeverStop : Obligations.CoreAndResetNeverStop := by
  refine fun s hs => ⟨hs.step_ne_fault, ?_⟩
  rintro (ha | ⟨rest, ha⟩ | ⟨rest, ha⟩)
  · exact hs.step_next_of_empty ha
  · exact hs.step_next_of_core ha
  · exact ⟨_, step_of_event ha⟩

/-! ### A started call completes (R189, R246) -/

/-- Every completion ends the call in DONE or ERROR and consumes the input (R185, R186). -/
theorem complete_ends (r : Except ErrorKind Handover) (s : State) :
    ((complete r s).status = .done ∨ (complete r s).status = .error) ∧ (complete r s).mem.ibuf = [] ∧
      (complete r s).cmd = s.cmd := by
  cases r with
  | ok h => exact ⟨.inl rfl, rfl, rfl⟩
  | error k => exact ⟨.inr rfl, rfl, rfl⟩

theorem readableWhileBusy_iff (reg : Nat) : readableWhileBusy reg = true ↔ reg = 0 ∨ reg = 1 ∨ reg = 2 ∨ reg = 6 := by
  simp [readableWhileBusy, or_assoc]

theorem exists_register_of_readable {reg : Nat} (h : readableWhileBusy reg = true) (s : State) :
    ∃ v, s.register reg = some v := by
  rcases (readableWhileBusy_iff reg).1 h with rfl | rfl | rfl | rfl
  all_goals exact ⟨_, rfl⟩

/-- A read that R31 permits while BUSY is accepted whatever STATE is (R188). -/
theorem hostStep_readReg_of_readable {s : State} {reg : Nat} {v : Word} (h : readableWhileBusy reg = true)
    (hv : s.register reg = some v) : hostStep (.readReg reg) s = .next (answer (.register v) s) := by
  simp [hostStep, hostReadReg, hv, h]

/-- Such a read leaves all but the schedule and the replies. -/
theorem runs_readableReg {s : State} {reg : Nat} {rest : List Event} (h : readableWhileBusy reg = true)
    (hagenda : s.agenda = .host (.readReg reg) :: rest) :
    ∃ replies, Runs s 1 { s with agenda := rest, replies := replies } := by
  obtain ⟨v, hv⟩ := exists_register_of_readable h { s with agenda := rest }
  exact ⟨_, .of_event hagenda (hostStep_readReg_of_readable h hv)⟩

theorem runs_readableRegs {s : State} {regs : List Nat} {rest : List Event}
    (hregs : ∀ r ∈ regs, readableWhileBusy r = true) (h : s.agenda = regs.map (fun r => .host (.readReg r)) ++ rest) :
    ∃ replies, Runs s regs.length { s with agenda := rest, replies := replies } := by
  induction regs generalizing s with
  | nil =>
    obtain rfl : s.agenda = rest := h
    exact ⟨s.replies, rfl⟩
  | cons r regs ih =>
    obtain ⟨hr, hregs⟩ := List.forall_mem_cons.1 hregs
    obtain ⟨first, hfirst⟩ := runs_readableReg hr h
    obtain ⟨replies, hrun⟩ := ih (s := { s with agenda := _, replies := first }) hregs rfl
    rw [List.length_cons, Nat.add_comm]
    exact ⟨replies, hfirst.trans hrun⟩

/-- With an empty schedule the next step completes the running call (log 16). -/
theorem runs_completion {s : State} {w : Word} (hb : s.status = .busy)
    (h : s.lcmd = opcField w ∧ s.lill = illegalWord w) (ha : s.agenda = []) :
    ∃ t, Runs s 1 t ∧ (t.status = .done ∨ t.status = .error) ∧ t.mem.ibuf = [] ∧ t.cmd = s.cmd ∧ t.agenda = [] := by
  obtain ⟨r, hr⟩ := coreTurn_of_latched hb h
  have hrun : Runs s 1 (complete r s) := runs_succ_iff.2 ⟨_, (step_of_empty ha).trans hr, runs_zero_iff.2 rfl⟩
  obtain ⟨hstatus, hibuf, hcmd⟩ := complete_ends r s
  exact ⟨complete r s, hrun, hstatus, hibuf, hcmd, (complete_agenda r s).trans ha⟩

/-- Settles O59: the reads leave the running call as it is, and the step after the last of them is the core's. -/
theorem startedCallCompletes : Obligations.StartedCallCompletes := by
  intro s regs hinv hb hregs hagenda
  obtain ⟨replies, hreads⟩ := runs_readableRegs (rest := []) (fun r hr => (readableWhileBusy_iff r).2 (hregs r hr))
    (hagenda.trans (List.append_nil _).symm)
  obtain ⟨t, hcore, hend⟩ :=
    runs_completion (s := { s with agenda := [], replies := replies }) hb (hinv.latched hb) rfl
  exact ⟨t, hreads.trans hcore, hend⟩

end Sys2Proof.Machine

/-! ## The exceptions (60_exceptions.md): an illegal word -/

namespace Sys2Proof.Machine

/-- START of a word that is no command's: accepted like any other, with LILL set (R183, R205). -/
theorem hostStep_start_of_illegal {s : State} {w : Word} (hs : s.status ≠ .busy) (hw : ∀ i, w ≠ encode i) :
    ∃ t, hostStep (.start w) s = .next t ∧ t.status = .busy ∧ t.lill = true ∧ t.cmd = w ∧ t.idx = s.idx ∧ t.capr = s.capr :=
  have hlill : illegalWord w = true := (illegalWord_eq_true_iff w).2 (not_exists.2 hw)
  ⟨startCall w s, hostStep_start_of_not_busy w hs, rfl, hlill, rfl, rfl, rfl⟩

/-- Settles O23: START sets LILL, and the core's turn on a running call with LILL set is the entry into the error, which examines
no operand. -/
theorem illegalWordFailsTheCall : Obligations.IllegalWordFailsTheCall := by
  intro s w hs hw
  obtain ⟨t, hstart, hbusy, hlill, hcmd, hidx, hcapr⟩ := hostStep_start_of_illegal hs hw
  have hfails : CallFails t (raiseError .illegalCommand t) .illegalCommand := raiseError_spec _ t
  have hcode : (raiseError .illegalCommand t).errWord = 5 := errWord_of_err hfails.err
  exact ⟨t, _, hstart, hbusy, hlill, coreTurn_of_illegal hbusy hlill, hfails.status, hfails.err, hcode, raiseError_mem t _,
    hfails.idx.trans hidx, hfails.cmd.trans hcmd, hfails.capr.trans hcapr⟩

end Sys2Proof.Machine

/-! ## Move to front as a bijection (41_mtf.md section 4) -/

namespace Sys2Proof.Machine

theorem IsMtf.ranks_unique {S R R' : Bytes} (h : IsMtf S R) (h' : IsMtf S R') : R' = R :=
  h'.eq_mtfEncLoop.trans h.eq_mtfEncLoop.symm

theorem IsMtf.bytes_unique {S S' R : Bytes} (h : IsMtf S R) (h' : IsMtf S' R) : S' = S := by
  obtain ⟨_, hrun⟩ := isMtf_iff_run.1 h
  obtain ⟨_, hrun'⟩ := isMtf_iff_run.1 h'
  exact hrun'.bytes_unique hrun

theorem exists_isMtf_of_bytes (S : Bytes) : ∃ R, IsMtf S R :=
  ⟨_, (mtfEncLoop_run (.refl identityTable) S).isMtf⟩

/-- Settles O40: the two loops give the existence, and the tables on both sides are the same at every place. -/
theorem mtfIsBijection : Obligations.MtfIsBijection := by
  refine ⟨fun S => ?_, fun R => ?_⟩
  · obtain ⟨R, h⟩ := exists_isMtf_of_bytes S
    exact ⟨R, h, fun _ => h.ranks_unique⟩
  · obtain ⟨S, h⟩ := exists_isMtf_of_ranks R
    exact ⟨S, h, fun _ => h.bytes_unique⟩

theorem exec_mtfDec_of_isMtf {s : State} {S : Bytes} (h : IsMtf S s.mem.ibuf) :
    ∃ t, exec .mtfDec s = .next t ∧ CallSucceeds s t S s.idx := by
  obtain ⟨t, S', ht, hs, hS'⟩ := mtfDecResult.2 s
  obtain rfl := h.bytes_unique hS'
  exact ⟨t, ht, hs⟩

/-- Settles O48: each command's output stands to its input in R113's relation, which the other command inverts. -/
theorem mtfRoundTrips : Obligations.MtfRoundTrips := by
  refine fun s => ⟨?_, ?_⟩
  · obtain ⟨t, R, ht, hs, hR⟩ := mtfEncResult.2 s
    rw [← hs.obuf] at hR
    exact ⟨t, ht, hR.length, fun u hu => exec_mtfDec_of_isMtf (hu ▸ hR)⟩
  · obtain ⟨t, S, ht, hs, hS⟩ := mtfDecResult.2 s
    rw [← hs.obuf] at hS
    exact ⟨t, ht, hS.length.symm, fun u hu => exec_mtfEnc_of_isMtf (hu ▸ hS)⟩

end Sys2Proof.Machine

/-! ## What a command's result can be (30_encoding.md R85, 60_exceptions.md R220): its kinds, its length, its index -/

namespace Sys2Proof.Machine

/-- The result is an error of one of the kinds, or a sequence of at most `n` bytes that comes with an index exactly if
`carries`. -/
inductive EndsWithin (kinds : List ErrorKind) (n : Nat) (carries : Bool) : Except ErrorKind Handover → Prop
  | error {k : ErrorKind} (kind : k ∈ kinds) : EndsWithin kinds n carries (.error k)
  | ok {h : Handover} (length : h.seq.length ≤ n) (idx : h.idx.isSome = carries) : EndsWithin kinds n carries (.ok h)

theorem EndsWithin.mono {kinds kinds' : List ErrorKind} {n n' : Nat} {carries : Bool} {r : Except ErrorKind Handover}
    (hr : EndsWithin kinds n carries r) (hkinds : kinds ⊆ kinds') (hn : n ≤ n') : EndsWithin kinds' n' carries r := by
  cases hr with
  | error kind => exact .error (hkinds kind)
  | ok length idx => exact .ok (length.trans hn) idx

/-- Stage composition: a stage's error passes, and its sequence is what the next stage finds in XBUF (R14, R166). -/
theorem EndsWithin.thenStage {kinds : List ErrorKind} {n m : Nat} {c c' : Bool} {r : Except ErrorKind Handover}
    {f : Working → Except ErrorKind Handover} (hr : EndsWithin kinds n c r)
    (hf : ∀ w : Working, w.xbuf.length ≤ n → EndsWithin kinds m c' (f w)) : EndsWithin kinds m c' (thenStage r f) := by
  cases hr with
  | error kind => exact .error kind
  | ok length _ => exact hf _ length

section Units

variable (w : Working) (cap : Nat) (idx : Word) (S : Bytes)

theorem bwtFwdUnit_endsWithin : EndsWithin [.corruptTransform] S.length true (bwtFwdUnit S w) := by
  by_cases hS : S = []
  · subst hS
    exact .error (by simp)
  · rw [bwtFwdUnit_ok hS]
    exact .ok (by simp) rfl

theorem bwtInvUnit_endsWithin : EndsWithin [.corruptTransform] S.length false (bwtInvUnit S idx w) := by
  rcases Nat.lt_or_ge idx.toNat S.length with h | h
  · have hrow : idx.toNat < (rowTable S S.length).length := by simpa using h
    have hlen : ((rowTable S S.length).getD idx.toNat []).length = S.length := by
      rw [List.getD_eq_getElem _ _ hrow]
      exact rowTable_row_length S _ _ (List.getElem_mem hrow)
    rw [bwtInvUnit_ok h]
    exact .ok hlen.le rfl
  · rw [bwtInvUnit_error h]
    exact .error (by simp)

theorem mtfEncUnit_endsWithin : EndsWithin [] S.length false (mtfEncUnit S w) := by
  rw [mtfEncUnit_ok]
  exact .ok (by simp) rfl

theorem mtfDecUnit_endsWithin : EndsWithin [] S.length false (mtfDecUnit S w) := by
  obtain ⟨out, -, hlen, hr⟩ := mtfDecUnit_ok S w
  rw [hr]
  exact .ok hlen.le rfl

theorem rleEncUnit_endsWithin : EndsWithin [.capacityExceeded] cap false (rleEncUnit cap S w) := by
  obtain ⟨hgt, hle⟩ := rleEncUnit_eq cap S w
  rcases Nat.lt_or_ge cap (serPairs (rdetScan ⟨false, 0, 0⟩ S).2).length with h | h
  · rw [hgt h]
    exact .error (by simp)
  · obtain ⟨w', hr⟩ := hle h
    rw [hr]
    exact .ok h rfl

theorem rleDecUnit_endsWithin :
    EndsWithin [.corruptTransform, .capacityExceeded] cap false (rleDecUnit cap S w) := by
  obtain hr | ⟨-, -, hr⟩ | ⟨-, hle, hr⟩ := rleDecUnit_cases cap S w
  · rw [hr]
    exact .error (by simp)
  · rw [hr]
    exact .error (by simp)
  · rw [hr]
    exact .ok ((expandPairs_length _).trans_le hle) rfl

theorem serWrUnit_endsWithin : EndsWithin [.capacityExceeded] cap false (serWrUnit cap idx S w) := by
  rcases Nat.lt_or_ge cap (4 + S.length) with h | h
  · rw [serWrUnit_error h]
    exact .error (by simp)
  · have hlen : (be32 idx ++ S).length = 4 + S.length := by simp [be32]; omega
    rw [serWrUnit_ok h]
    exact .ok (hlen.trans_le h) rfl

theorem serRdUnit_endsWithin : EndsWithin [.truncatedHeader, .truncatedPayload] S.length true (serRdUnit S w) := by
  obtain ⟨-, hr⟩ | ⟨b0, b1, b2, b3, B, rfl, ⟨-, hr⟩ | ⟨-, hr⟩⟩ := serRdUnit_cases S w
  · rw [hr]
    exact .error (by simp)
  · rw [hr]
    exact .error (by simp)
  · rw [hr]
    exact .ok (by simp; omega) rfl

/-- SER_WR delivers the output, so its test of the capacity bounds it (R161). -/
theorem compressStages_endsWithin :
    EndsWithin [.corruptTransform, .capacityExceeded] cap false (compressStages cap S w) := by
  unfold compressStages
  refine .thenStage (n := cap) (c := false) (.thenStage (n := S.length) (c := false)
    (.thenStage (n := S.length) (c := true) ?bwt fun w hw => ?mtf) fun w _ => ?rle) fun w _ => ?ser
  case bwt => exact (bwtFwdUnit_endsWithin w S).mono (by simp) le_rfl
  case mtf => exact (mtfEncUnit_endsWithin w w.xbuf).mono (by simp) hw
  case rle => exact (rleEncUnit_endsWithin w cap w.xbuf).mono (by simp) le_rfl
  case ser => exact (serWrUnit_endsWithin w cap w.pidx w.xbuf).mono (by simp) le_rfl

/-- RLE_DEC's output is within the capacity, and the stages behind it keep the length (R164). -/
theorem decompressStages_endsWithin :
    EndsWithin [.truncatedHeader, .truncatedPayload, .corruptTransform, .capacityExceeded] cap false
      (decompressStages cap S w) := by
  unfold decompressStages
  refine .thenStage (n := cap) (c := false) (.thenStage (n := cap) (c := false)
    (.thenStage (n := S.length) (c := true) ?ser fun w _ => ?rle) fun w hw => ?mtf) fun w hw => ?bwt
  case ser => exact (serRdUnit_endsWithin w S).mono (by simp) le_rfl
  case rle => exact (rleDecUnit_endsWithin w cap w.xbuf).mono (by simp) le_rfl
  case mtf => exact (mtfDecUnit_endsWithin w w.xbuf).mono (by simp) hw
  case bwt => exact (bwtInvUnit_endsWithin w w.pidx w.xbuf).mono (by simp) hw

end Units

/-- Every command's result: the kinds of R220's row, a length within the capacity or the input's, an index as R85 says. -/
theorem unitResult_endsWithin (i : Instr) (s : State) :
    EndsWithin (possibleKinds i) (max s.cap s.mem.ibuf.length) (writesIdx i) (unitResult i s) := by
  have hcap : s.cap ≤ max s.cap s.mem.ibuf.length := le_max_left ..
  have hlen : s.mem.ibuf.length ≤ max s.cap s.mem.ibuf.length := le_max_right ..
  cases i with
  | compress => exact (compressStages_endsWithin _ _ _).mono (List.Subset.refl _) hcap
  | decompress => exact (decompressStages_endsWithin _ _ _).mono (List.Subset.refl _) hcap
  | bwtFwd => exact (bwtFwdUnit_endsWithin _ _).mono (List.Subset.refl _) hlen
  | bwtInv => exact (bwtInvUnit_endsWithin _ _ _).mono (List.Subset.refl _) hlen
  | mtfEnc => exact (mtfEncUnit_endsWithin _ _).mono (List.Subset.refl _) hlen
  | mtfDec => exact (mtfDecUnit_endsWithin _ _).mono (List.Subset.refl _) hlen
  | rleEnc => exact (rleEncUnit_endsWithin _ _ _).mono (List.Subset.refl _) hcap
  | rleDec => exact (rleDecUnit_endsWithin _ _ _).mono (List.Subset.refl _) hcap
  | serWr => exact (serWrUnit_endsWithin _ _ _ _).mono (List.Subset.refl _) hcap
  | serRd => exact (serRdUnit_endsWithin _ _).mono (List.Subset.refl _) hlen

/-- Every result of a command: an error of its row of R220, or a handover with an index exactly where R85 says. -/
theorem unitResult_cases (i : Instr) (s : State) :
    (∃ k, k ∈ possibleKinds i ∧ unitResult i s = .error k) ∨
    ∃ h, unitResult i s = .ok h ∧ h.seq.length ≤ max s.cap s.mem.ibuf.length ∧ h.idx.isSome = writesIdx i := by
  have hr := unitResult_endsWithin i s
  generalize unitResult i s = r at hr ⊢
  cases hr with
  | error kind => exact .inl ⟨_, kind, rfl⟩
  | ok length idx => exact .inr ⟨_, rfl, length, idx⟩

/-- No row of R220 has NONE or the code that is never raised (R204). -/
theorem possibleKinds_spec {i : Instr} {k : ErrorKind} (h : k ∈ possibleKinds i) :
    k ≠ .noError ∧ k ≠ .encodingOverflow := by
  revert k
  cases i <;> decide

end Sys2Proof.Machine

/-! ## The invariant (Safety.lean's `State.Inv`): it holds after reset and every step keeps it -/

namespace Sys2Proof.Machine

theorem resetWith_inv {capr : Word} (h : 6 ≤ capr.toNat) : (State.resetWith capr).Inv where
  cap_min := h
  ibuf_fits := Nat.zero_le _
  obuf_fits := Nat.zero_le _
  xbuf_fits := Nat.zero_le _
  sym_size := List.length_replicate
  stage_rest := rfl
  kind_iff_error := by simp [State.resetWith]
  no_encoding_overflow := nofun
  output_only_done _ := rfl
  latched := nofun
  idle_cmd _ := rfl

/-- Settles O56: the configured capacity is within R7's bounds, and empty buffers fit every capacity. -/
theorem resetSatisfiesInvariant : Obligations.ResetSatisfiesInvariant :=
  ⟨resetWith_inv configCap_min, fun _ => resetWith_inv⟩

section Updates

variable {s : State} (h : s.Inv)
include h

/-- An output within the capacity keeps the invariant (R185). -/
theorem State.Inv.succeed {g : Handover} (hlen : g.seq.length ≤ s.cap) : (succeed g s).Inv where
  cap_min := h.cap_min
  ibuf_fits := Nat.zero_le _
  obuf_fits := hlen
  xbuf_fits := Working.free_xbuf_length_le ..
  sym_size := Working.free_sym_length ..
  stage_rest := rfl
  kind_iff_error := by simp
  no_encoding_overflow := nofun
  output_only_done hne := absurd rfl hne
  latched := nofun
  idle_cmd := nofun

theorem State.Inv.raiseError {k : ErrorKind} (hk : k ≠ .noError ∧ k ≠ .encodingOverflow) : (raiseError k s).Inv where
  cap_min := h.cap_min
  ibuf_fits := Nat.zero_le _
  obuf_fits := Nat.zero_le _
  xbuf_fits := Working.free_xbuf_length_le ..
  sym_size := Working.free_sym_length ..
  stage_rest := rfl
  kind_iff_error := iff_of_true hk.1 rfl
  no_encoding_overflow := hk.2
  output_only_done _ := rfl
  latched := nofun
  idle_cmd := nofun

theorem State.Inv.resetStep : (resetStep s).Inv where
  cap_min := h.cap_min
  ibuf_fits := Nat.zero_le _
  obuf_fits := Nat.zero_le _
  xbuf_fits := Working.free_xbuf_length_le ..
  sym_size := Working.free_sym_length ..
  stage_rest := rfl
  kind_iff_error := by simp
  no_encoding_overflow := nofun
  output_only_done _ := rfl
  latched := nofun
  idle_cmd _ := rfl

/-- START sets the latches from the word it writes to CMD (R183). -/
theorem State.Inv.startCall (w : Word) : (startCall w s).Inv :=
  { h with
    obuf_fits := Nat.zero_le _
    kind_iff_error := by simp
    no_encoding_overflow := nofun
    output_only_done := fun _ => rfl
    latched := fun _ => ⟨rfl, rfl⟩
    idle_cmd := nofun }

theorem State.Inv.answer (r : Reply) : (answer r s).Inv := { h with }

/-- A completion of one of the ten results (R184). -/
theorem State.Inv.complete (i : Instr) : (complete (unitResult i s) s).Inv := by
  obtain ⟨k, hk, hr⟩ | ⟨g, hr, hlen, -⟩ := unitResult_cases i s
  · exact hr ▸ h.raiseError (possibleKinds_spec hk)
  · exact hr ▸ h.succeed (hlen.trans_eq (max_eq_left h.ibuf_fits))

theorem State.Inv.coreTurn {t : State} (ht : coreTurn s = .next t) : t.Inv := by
  obtain ⟨-, rfl⟩ | ⟨-, -, rfl⟩ | ⟨-, -, i, -, rfl⟩ := coreTurn_cases ht
  · exact h
  · exact h.raiseError (by decide)
  · exact h.complete i

theorem State.Inv.hostStep {t : Transaction} {u : State} (hu : hostStep t s = .next u) : u.Inv := by
  obtain ⟨seq, -, -, hfits, rfl⟩ | ⟨v, -, -, rfl⟩ | ⟨w, -, -, rfl⟩ | ⟨-, -, rfl⟩ | ⟨reg, v, -, -, -, rfl⟩ |
    ⟨off, b, -, -, -, rfl⟩ := hostStep_cases hu
  · exact { h with ibuf_fits := hfits }
  · exact { h with }
  · exact h.startCall w
  · exact h.answer _
  · exact h.answer _
  · exact h.answer _

end Updates

/-- Settles O57: each agent's turn keeps the invariant, whatever is left of the schedule. -/
theorem stepKeepsInvariant : Obligations.StepKeepsInvariant := by
  intro s t h ht
  obtain ⟨-, hcore⟩ | ⟨rest, -, hcore⟩ | ⟨tr, rest, -, hhost⟩ | ⟨rest, -, rfl⟩ | ⟨rest, -, -, rfl⟩ := step_cases ht
  · exact h.coreTurn hcore
  · exact (h.withAgenda rest).coreTurn hcore
  · exact (h.withAgenda rest).hostStep hhost
  · exact (h.withAgenda rest).resetStep
  · exact (h.withAgenda _).answer _

end Sys2Proof.Machine

/-! ## The endings of a call (45_host_interface.md R185, R186, 60_exceptions.md R220) and the commands' laws -/

namespace Sys2Proof.Machine

/-! ### Every command succeeds or fails, with a kind of its row (R168, R208, R220) -/

/-- Settles O24: a result is an error or a handover, and only a command that writes IDX hands an index over. -/
theorem everyCallEndsOneOfTwoWays : Obligations.EveryCallEndsOneOfTwoWays := by
  intro i s
  obtain ⟨k, hk, hr⟩ | ⟨h, hr, -, hidx⟩ := unitResult_cases i s
  · obtain ⟨t, ht, hf⟩ := exec_of_unitResult_error hr
    exact ⟨t, ht, .inr ⟨k, hf, (possibleKinds_spec hk).1⟩⟩
  · obtain ⟨t, ht, hs⟩ := exec_of_unitResult_ok hr
    refine ⟨t, ht, .inl ⟨_, _, hs, fun hw => ?_⟩⟩
    have hnone : h.idx = none := by rwa [hw, Option.isSome_eq_false_iff, Option.isNone_iff_eq_none] at hidx
    rw [hnone, Option.getD_none]

/-- For each row of R220 an input on which the command reports the kind, with CAP = 6 and IDX = 0. -/
def failingInput : Instr → ErrorKind → Bytes
  | .compress, .capacityExceeded => [1, 2, 3, 4, 5, 6]
  | .decompress, .truncatedPayload => [0, 0, 0, 0, 1]
  | .decompress, .corruptTransform => [0, 0, 0, 0, 0, 1]
  | .decompress, .capacityExceeded => [0, 0, 0, 0, 7, 1]
  | .rleEnc, .capacityExceeded => [1, 2, 3, 4]
  | .rleDec, .corruptTransform => [1]
  | .rleDec, .capacityExceeded => [7, 1]
  | .serWr, .capacityExceeded => [1, 2, 3]
  | .serRd, .truncatedPayload => [0, 0, 0, 0, 1]
  | _, _ => []

/-- The block of capacity 6 after reset, with the failing input loaded. -/
def failingState (i : Instr) (k : ErrorKind) : State := { State.resetWith 6 with mem := ⟨failingInput i k, []⟩ }

theorem failingInput_length_le (i : Instr) (k : ErrorKind) : (failingInput i k).length ≤ 6 := by
  cases i <;> cases k <;> decide

theorem failingState_inv (i : Instr) (k : ErrorKind) : (failingState i k).Inv :=
  { resetWith_inv (capr := 6) (by decide) with ibuf_fits := failingInput_length_le i k }

/-- The model evaluates each failing state to an error of the kind it is for. -/
theorem complete_failingState {i : Instr} {k : ErrorKind} (hk : k ∈ possibleKinds i) :
    (complete (unitResult i (failingState i k)) (failingState i k)).status = .error ∧
      (complete (unitResult i (failingState i k)) (failingState i k)).err = k := by
  revert k
  cases i <;> decide

/-- Settles O25: a failed call's kind is its result's, and the failing states show each entry reported. -/
theorem errorKindMatrix : Obligations.ErrorKindMatrix := by
  refine ⟨fun i s => ⟨_, exec_eq_complete i s, fun herror => ?_⟩, fun i k hk => ?_⟩
  · obtain ⟨k, hk, hr⟩ | ⟨h, hr, -⟩ := unitResult_cases i s
    · rwa [hr]
    · rw [hr] at herror
      cases herror
  · exact ⟨_, _, failingState_inv i k, exec_eq_complete i _, complete_failingState hk⟩

/-! ### Who reads IDX (R85) -/

theorem unitResult_of_not_readsIdx {i : Instr} (h : readsIdx i = false) (s : State) (v : Word) :
    unitResult i { s with idx := v } = unitResult i s := by
  cases i with
  | bwtInv | serWr => cases h
  | _ => rfl

/-- Settles O27: the result does not depend on IDX, and a completion uses the old IDX only where none is delivered. -/
theorem idxIsReadByTwoCommandsOnly : Obligations.IdxIsReadByTwoCommandsOnly := by
  intro i s v hi
  refine ⟨_, _, exec_eq_complete i s, exec_eq_complete i _, ?_⟩
  rw [unitResult_of_not_readsIdx hi s v]
  obtain ⟨k, -, hr⟩ | ⟨h, hr, -, hidx⟩ := unitResult_cases i s
  · rw [hr]
    exact ⟨rfl, rfl, rfl, nofun⟩
  · rw [hr]
    refine ⟨rfl, rfl, rfl, fun _ hw => ?_⟩
    obtain ⟨x, hx⟩ := Option.isSome_iff_exists.1 (hidx.trans hw)
    rw [complete_ok, complete_ok, succeed_idx, succeed_idx, hx, Option.getD_some, Option.getD_some]

/-! ### The laws of the run detector and of BWT_INV (R134, R242) -/

/-- Settles O42: from any closed detector the pairs are those of the split maximal runs, run by run. -/
theorem runDetectorEmitsRuns : Obligations.RunDetectorEmitsRuns := fun _ _ _ hd h => h.serPairs_rdetScan hd

/-- Settles O45: the table of a forward image holds the rotations in canonical order. -/
theorem wrongIndexGivesRotation : Obligations.WrongIndexGivesRotation := by
  rintro u S _ P hP rfl hibuf hidx
  exact exec_bwtInv_forward_image hP hibuf (by rwa [List.length_map] at hidx)

/-! ### Small inputs compress (R167, R235) -/

/-- A run covers at most 255 bytes, so a non-empty sequence has a pair (R141). -/
theorem IsRle.two_le_length {R B : Bytes} (h : IsRle R B) (hR : R ≠ []) : 2 ≤ B.length := by
  have hhigh : countTotal B ≤ 255 * (B.length / 2) := (countTotal_bounds h.legal).2
  have hpos : 0 < R.length := List.length_pos_iff.2 hR
  rw [h.countTotal_eq] at hhigh
  omega

/-- Settles O53: the RunList of `n` ranks has between 1 and `n` pairs. -/
theorem smallInputsCompress : Obligations.SmallInputsCompress := by
  intro s hne hsmall
  obtain ⟨L, k, R, B, hL, hR, hB, hlen⟩ := exists_images hne
  have hRne : R ≠ [] := fun h => hne (List.length_eq_zero_iff.1 (by rw [← hlen, h, List.length_nil]))
  have hmin : 2 ≤ B.length := hB.two_le_length hRne
  have hmax : B.length ≤ 2 * R.length := hB.length_le
  have heven : B.length % 2 = 0 := hB.legal.1
  obtain ⟨t, ht, hs⟩ := exec_compress_of_le hne hL hR hB (by omega)
  refine ⟨t, _, ht, hs, ?_⟩
  rw [List.length_append, headerBytes_length]
  omega

end Sys2Proof.Machine

/-! ## The command word (30_encoding.md R70 to R72): its fields as numbers, the ten words, the illegal words -/

namespace Sys2Proof

theorem unitField_toNat (w : Word) : (unitField w).toNat = w.toNat / 2 % 8 := by
  simp [unitField, BitVec.extractLsb', Nat.shiftRight_eq_div_pow]

theorem dirField_toNat (w : Word) : (dirField w).toNat = w.toNat % 2 := by
  simp [dirField, BitVec.extractLsb']

theorem decode_encode (i : Instr) : decode (encode i) = .ok i := (decode_eq_ok_iff_eq_encode _ i).2 rfl

/-- Settles O1: each of the ten words is the word that its command encodes to. -/
theorem tableWordsDecode : Obligations.TableWordsDecode :=
  ⟨decode_encode .compress, decode_encode .decompress, decode_encode .bwtFwd, decode_encode .bwtInv, decode_encode .mtfEnc,
    decode_encode .mtfDec, decode_encode .rleEnc, decode_encode .rleDec, decode_encode .serWr, decode_encode .serRd⟩

/-- Settles O4: the fields of a word by division, and a command's word is accepted field by field. -/
theorem formatCFields : Obligations.FormatCFields := by
  refine ⟨fun w => ?_, fun i => (decode_eq_ok_iff _ i).1 (decode_encode i)⟩
  rw [Machine.opcField_toNat, unitField_toNat, dirField_toNat]
  omega

/-- The values 5, 6 and 7 of UNIT name no unit (R72). -/
theorem decodeUnit_eq_none_iff (u : BitVec 3) : decodeUnit u = none ↔ 5 ≤ u.toNat := by
  revert u
  decide

/-- A word is illegal by its field ZERO or by its field UNIT (R72). -/
theorem illegalWord_iff_fields (w : Word) : illegalWord w = true ↔ zeroField w ≠ 0#28 ∨ 5 ≤ (unitField w).toNat := by
  rw [← decodeUnit_eq_none_iff, illegalWord, decode]
  by_cases hz : zeroField w = 0#28
  · cases hu : decodeUnit (unitField w) <;> simp [hz]
  · simp [hz]

/-- Settles O3: ZERO is 0 below 16, and there UNIT is half the value. -/
theorem illegalWordsAreTheOthers : Obligations.IllegalWordsAreTheOthers := by
  refine fun w => ⟨?_, illegalWord_iff_fields w⟩
  rw [illegalWord_iff_fields, ne_eq, Machine.zeroField_eq_zero_iff, unitField_toNat]
  omega

end Sys2Proof

/-! ## The buffer spaces (20_memory.md R54): single accesses, and H_LOAD as its single-byte writes (R181) -/

namespace Sys2Proof.Machine

/-! ### MemWrite and MemRead (R54, log 25) -/

/-- MemWrite's bound is its only test. -/
theorem Spaces.exists_write_iff {σ : Spaces} {sp : Space} {addr : Nat} {v : Bytes} :
    (∃ σ', σ.write sp addr v = some σ') ↔ addr + v.length ≤ (σ.get sp).slots.length :=
  ⟨fun ⟨_, h⟩ => (Spaces.write_cases h).1, fun h => ⟨_, if_pos h⟩⟩

/-- Slots of which the ones from `addr` on hold the bytes `v` read as `v` once the length covers them. -/
theorem Spaces.read_of_slots {σ : Spaces} {sp : Space} {addr : Nat} {v : Bytes} {before after : List (Option Byte)}
    (h : (σ.get sp).slots = before ++ v.map some ++ after) (haddr : before.length = addr)
    (hlen : addr + v.length ≤ (σ.get sp).len) : σ.read sp addr v.length = some v := by
  have hv : (v.map some).length = v.length := List.length_map _
  rw [Spaces.read, if_pos hlen, h, List.append_assoc, List.drop_left' haddr, List.take_left' hv, mapM_id_map_some]

theorem Spaces.get_setLen (σ : Spaces) (sp : Space) (len : Nat) :
    (σ.setLen sp len).get sp = { σ.get sp with len := len } := Spaces.get_set ..

/-- Outside the range it replaces, a list with `v` written at `addr` is as before. -/
theorem getElem?_overwrite {α : Type} {l v : List α} {addr off : Nat} (hfits : addr + v.length ≤ l.length)
    (h : off < addr ∨ addr + v.length ≤ off) : (l.take addr ++ v ++ l.drop (addr + v.length))[off]? = l[off]? := by
  have htake : (l.take addr).length = addr := List.length_take_of_le (by omega)
  rcases h with h | h
  · rw [List.append_assoc, List.getElem?_append_left (by omega), List.getElem?_take_of_lt h]
  · rw [List.getElem?_append_right (by rw [List.length_append]; omega), List.getElem?_drop, List.length_append, htake]
    congr 1
    omega

/-- Settles O8: a write answers one space with the written range replaced, and the read finds that range. -/
theorem writeThenReadBuffer : Obligations.WriteThenReadBuffer := by
  intro cap σ sp addr v hwf
  obtain ⟨hcap, -⟩ := (Spaces.wf_iff cap σ).1 hwf sp
  refine ⟨by rw [Spaces.exists_write_iff, hcap], fun σ' hw => ?_⟩
  obtain ⟨hfits, rfl⟩ := Spaces.write_cases hw
  have htake : ((σ.get sp).slots.take addr).length = addr := List.length_take_of_le (by omega)
  refine ⟨fun len hlen => ?_, fun hlen => ?_, fun off hoff => ?_, ?_, fun other => Spaces.get_set_of_ne _ _⟩
  · refine Spaces.read_of_slots (after := (σ.get sp).slots.drop (addr + v.length)) ?_ htake ?_
    · rw [Spaces.get_setLen, Spaces.get_set]
    · rwa [Spaces.get_setLen]
  · refine Spaces.read_of_slots (after := (σ.get sp).slots.drop (addr + v.length)) ?_ htake ?_
    · rw [Spaces.get_set]
    · rwa [Spaces.get_set]
  · rw [← List.length_map (as := v) some] at hfits hoff ⊢
    rw [Spaces.get_set, getElem?_overwrite hfits hoff]
  · rw [Spaces.get_set]

/-! ### H_LOAD (R181) -/

/-- The IBUF space after the single-byte writes of the first `k` bytes of `seq`. -/
def loadedTo (σ : Spaces) (seq : Bytes) (k : Nat) : Spaces :=
  { σ with ibuf := ⟨(seq.take k).map some ++ σ.ibuf.slots.drop k, σ.ibuf.len⟩ }

/-- One more byte. -/
theorem loadedTo_write {σ : Spaces} {seq : Bytes} {k : Nat} (hk : k < seq.length)
    (hfits : seq.length ≤ σ.ibuf.slots.length) :
    (loadedTo σ seq k).write .ibuf k [seq.getD k 0] = some (loadedTo σ seq (k + 1)) := by
  have hwritten : ((seq.take k).map some).length = k := by
    rw [List.length_map, List.length_take_of_le hk.le]
  have hslots : ((loadedTo σ seq k).get .ibuf).slots = (seq.take k).map some ++ σ.ibuf.slots.drop k := rfl
  have hbefore : ((seq.take k).map some ++ σ.ibuf.slots.drop k).take k = (seq.take k).map some :=
    List.take_left' hwritten
  have hafter : ((seq.take k).map some ++ σ.ibuf.slots.drop k).drop (k + 1) = σ.ibuf.slots.drop (k + 1) := by
    rw [← List.drop_drop, List.drop_left' hwritten, List.drop_drop]
  have hnext : (seq.take k).map some ++ [seq.getD k 0].map some = (seq.take (k + 1)).map some := by
    rw [← List.map_append, List.getD_eq_getElem _ _ hk, List.take_append_getElem]
  have hbound : k + 1 ≤ ((seq.take k).map some ++ σ.ibuf.slots.drop k).length := by
    rw [List.length_append, hwritten, List.length_drop]
    omega
  simp only [Spaces.write, hslots, List.length_singleton, if_pos hbound, hbefore, hafter, hnext]
  rfl

/-- The writes at the offsets 0, 1, ..., by induction on their number. -/
theorem foldlM_write_range {σ : Spaces} {seq : Bytes} {k : Nat} (hk : k ≤ seq.length)
    (hfits : seq.length ≤ σ.ibuf.slots.length) :
    (List.range k).foldlM (fun σ i => Spaces.write σ .ibuf i [seq.getD i 0]) σ = some (loadedTo σ seq k) := by
  induction k with
  | zero => rfl
  | succ k ih =>
    rw [List.range_succ, List.foldlM_append, ih (by omega)]
    exact (bind_pure _).trans (loadedTo_write hk hfits)

/-- Settles O7: after the last write the first slots of IBUF hold the sequence, and OBUF is untouched. -/
theorem loadIsByteWrites : Obligations.LoadIsByteWrites := by
  intro s seq hs hcap
  have hfits : seq.length ≤ (s.mem.spaces s.cap).ibuf.slots.length := by
    simp [Memory.spaces, byteSpace]
    omega
  refine ⟨_, _, hostStep_load_of_fits hs hcap, foldlM_write_range le_rfl hfits, fun addr n => ?_, fun addr n => ?_⟩
  · have hibuf : ((loadedTo (s.mem.spaces s.cap) seq seq.length).setLen .ibuf seq.length).get .ibuf =
        ⟨seq.map some ++ (s.mem.spaces s.cap).ibuf.slots.drop seq.length, seq.length⟩ := by
      rw [Spaces.get_setLen, loadedTo, List.take_length]
      rfl
    exact Spaces.read_of_holds hibuf addr n
  · exact Spaces.read_of_holds (σ := (loadedTo (s.mem.spaces s.cap) seq seq.length).setLen .ibuf seq.length)
      (sp := .obuf) (seq := s.mem.obuf) rfl addr n

end Sys2Proof.Machine

/-! ## The host's reads and refusals (45_host_interface.md sections 2 and 4), and whose turn writes what (10_state.md) -/

namespace Sys2Proof.Machine

/-! ### Reads (R56, R187, R188) -/

section Reads

variable {s : State}

theorem hostStep_readOut_of_not_busy (hs : s.status ≠ .busy) :
    hostStep .readOut s = .next (answer (.sequence s.mem.obuf) s) :=
  if_neg hs

theorem hostStep_readObuf_of_lt {off : Nat} {b : Byte} (hs : s.status ≠ .busy) (hb : s.mem.obuf[off]? = some b) :
    hostStep (.readObuf off) s = .next (answer (.byte b) s) := by
  have hbyte : s.mem.byte .obuf off = some b := hb
  rw [hostStep, hostReadObuf, if_neg hs, hbyte]

/-- A register that exists is read while not BUSY, and those of R31 always (R188). -/
theorem hostStep_readReg_of_register {reg : Nat} {v : Word} (hv : s.register reg = some v)
    (h : readableWhileBusy reg = true ∨ s.status ≠ .busy) : hostStep (.readReg reg) s = .next (answer (.register v) s) := by
  rcases h with h | h
  · exact hostStep_readReg_of_readable h hv
  · rw [hostStep, hostReadReg, hv]
    exact if_neg fun hb => h hb.1

theorem hostStep_readReg_of_busy {reg : Nat} {v : Word} (hv : s.register reg = some v) (hs : s.status = .busy)
    (h : readableWhileBusy reg = false) : hostStep (.readReg reg) s = .refused .blockBusy := by
  rw [hostStep, hostReadReg, hv]
  exact if_pos ⟨hs, h⟩

theorem register_eq_none {reg : Nat} (h : 6 < reg) : s.register reg = none := by
  unfold State.register
  split
  case h_8 => rfl
  all_goals omega

end Reads

theorem Memory.read_obuf_whole (m : Memory) : m.read .obuf 0 m.obuf.length = some m.obuf := by
  simp [Memory.read, Memory.space]

/-- Settles O12: READ and the byte reads are answers, and MemRead of all OLEN bytes is the sequence. -/
theorem readOutReturnsOutput : Obligations.ReadOutReturnsOutput :=
  fun s hs => ⟨hostStep_readOut_of_not_busy hs, fun _ _ => hostStep_readObuf_of_lt hs, s.mem.read_obuf_whole⟩

/-- Settles O13: the register file of R30, and R31's four registers. -/
theorem readRegReturnsRegister : Obligations.ReadRegReturnsRegister := by
  intro s reg v hreg
  have hv : s.register reg = some v := by
    rcases hreg with ⟨rfl, rfl⟩ | ⟨rfl, rfl⟩ | ⟨rfl, rfl⟩ | ⟨rfl, rfl⟩ | ⟨rfl, rfl⟩ | ⟨rfl, rfl⟩ | ⟨rfl, rfl⟩
    all_goals rfl
  refine ⟨fun h => hostStep_readReg_of_register hv ?_, fun hs h => hostStep_readReg_of_busy hv hs ?_⟩
  · rw [readableWhileBusy_iff]
    tauto
  · rcases h with rfl | rfl | rfl
    all_goals rfl

/-- Settles O18: every accepted read is an answer. -/
theorem readsHaveNoSideEffect : Obligations.ReadsHaveNoSideEffect := by
  intro s u t ht hu
  obtain ⟨seq, rfl, -⟩ | ⟨v, rfl | rfl, -⟩ | ⟨w, rfl | rfl, -⟩ | ⟨-, -, rfl⟩ | ⟨reg, v, -, -, -, rfl⟩ |
    ⟨off, b, -, -, -, rfl⟩ := hostStep_cases hu
  case inr.inr.inr.inl => exact ⟨_, rfl⟩
  case inr.inr.inr.inr.inl => exact ⟨_, rfl⟩
  case inr.inr.inr.inr.inr => exact ⟨_, rfl⟩
  all_goals simp at ht

/-- Settles O17: of the accepted transactions only a register read does not ask for STATE other than BUSY. -/
theorem runningCallIsUndisturbed : Obligations.RunningCallIsUndisturbed := by
  intro s u t hs hu
  obtain ⟨-, -, hidle, -⟩ | ⟨-, -, hidle, -⟩ | ⟨-, -, hidle, -⟩ | ⟨-, hidle, -⟩ | ⟨reg, v, rfl, -, hread, rfl⟩ |
    ⟨-, -, -, hidle, -⟩ := hostStep_cases hu
  case inr.inr.inr.inr.inl => exact ⟨rfl, reg, rfl, (readableWhileBusy_iff reg).1 (hread hs)⟩
  all_goals exact absurd hs hidle

/-! ### Refusals (R190, log 8) -/

theorem hostStep_writeReg_refused {reg : Nat} (h : 6 < reg) (v : Word) (s : State) :
    hostStep (.writeReg reg v) s = .refused (.noSuchRegister reg) := by
  simp only [hostStep, hostWriteReg]
  split
  case h_8 => rfl
  all_goals omega

theorem hostStep_readReg_refused {reg : Nat} (h : 6 < reg) (s : State) :
    hostStep (.readReg reg) s = .refused (.noSuchRegister reg) := by
  rw [hostStep, hostReadReg, register_eq_none h]

theorem hostStep_readObuf_refused {s : State} {off : Nat} (h : s.mem.obuf.length ≤ off) :
    ∃ r, hostStep (.readObuf off) s = .refused r := by
  by_cases hs : s.status = .busy
  · exact ⟨.blockBusy, if_pos hs⟩
  · have hbyte : s.mem.byte .obuf off = none := List.getElem?_eq_none h
    refine ⟨.noByteInObuf off, ?_⟩
    rw [hostStep, hostReadObuf, if_neg hs, hbyte]

/-- Settles O15: the accesses of R190's list, first those that R31 refuses while BUSY. -/
theorem refusedTransactions : Obligations.RefusedTransactions := by
  refine fun s => ⟨fun hs => ?_, fun seq h => hostStep_load_refused (.inr h), fun reg v h => ?_,
    fun reg v h => ⟨hostStep_writeReg_refused h v s, hostStep_readReg_refused h s⟩,
    fun off => hostStep_readObuf_refused, fun off => rfl⟩
  · exact ⟨fun _ => if_pos hs, fun _ => if_pos hs, fun _ => if_pos hs, if_pos hs, hostStep_readReg_of_busy rfl hs rfl,
      hostStep_readReg_of_busy rfl hs rfl, hostStep_readReg_of_busy rfl hs rfl⟩
  · rcases h with rfl | rfl | rfl | rfl | rfl
    all_goals rfl

theorem registerExists_of_register {s : State} {reg : Nat} {v : Word} (h : s.register reg = some v) :
    registerExists reg = true := by
  rw [registerExists, decide_eq_true_eq]
  by_contra hreg
  rw [register_eq_none (Nat.lt_of_not_le hreg)] at h
  cases h

/-- What a state accepts is well-formed for its capacity. -/
theorem Transaction.wf_of_hostStep_next {s u : State} {t : Transaction} (hobuf : s.mem.obuf.length ≤ s.cap)
    (hu : hostStep t s = .next u) : t.wf s.cap = true := by
  obtain ⟨seq, rfl, -, hfits, -⟩ | ⟨v, rfl | rfl, -⟩ | ⟨w, rfl | rfl, -⟩ | ⟨rfl, -⟩ | ⟨reg, v, rfl, hv, -⟩ |
    ⟨off, b, rfl, -, hb, -⟩ := hostStep_cases hu
  case inl => exact decide_eq_true hfits
  case inr.inr.inr.inr.inl => exact registerExists_of_register hv
  case inr.inr.inr.inr.inr => exact decide_eq_true ((List.getElem?_eq_some_iff.1 hb).1.trans_le hobuf)
  all_goals rfl

/-- Settles O16: a transaction that is not accepted is refused, since none faults. -/
theorem illFormedTransactionsRefused : Obligations.IllFormedTransactionsRefused := by
  intro s t hobuf hwf
  cases ho : hostStep t s with
  | next u => exact absurd (Transaction.wf_of_hostStep_next hobuf ho) (by simp [hwf])
  | fault f => exact absurd ho (hostStep_ne_fault t s f)
  | refused r => exact ⟨r, rfl⟩

/-! ### The next turn (R180, R184, R230) -/

/-- Settles O5: the turn at the head is taken off, and XFER puts its load in front of the rest. -/
theorem stepTakesTheNextTurn : Obligations.StepTakesTheNextTurn :=
  fun _ => ⟨step_of_empty, fun _ => ⟨step_of_event, fun _ => step_of_event,
    fun ha hd => ⟨_, (step_of_event ha).trans (if_pos hd), rfl, rfl⟩⟩⟩

/-- Settles O19: RESET is taken in every state, and the core does nothing while IDLE. -/
theorem resetMakesIdle : Obligations.ResetMakesIdle := by
  refine fun s rest ha => ⟨resetStep { s with agenda := rest }, step_of_event ha, rfl, rfl, rfl, rfl, rfl, rfl, rfl, rfl,
    rfl, rfl, rfl, ?_⟩
  exact (step_of_empty rfl).trans (coreTurn_of_not_busy nofun)

/-- Settles O21: the core's turn comes from the empty schedule or from its head. -/
theorem stepRunsLatchedCommand : Obligations.StepRunsLatchedCommand :=
  fun _ _ hb hl hi => ⟨fun ha => (step_of_empty ha).trans (coreTurn_of_command hb hl hi),
    fun _ ha => (step_of_event ha).trans (coreTurn_of_command hb hl hi)⟩

/-- Settles O22: START latches the word, and the core's turn that follows runs the command that the word decodes to. -/
theorem startThenCoreRunsCommand : Obligations.StartThenCoreRunsCommand := by
  intro s w i rest hs hw ha
  refine ⟨startCall w { s with agenda := .core :: rest }, ?_, rfl, rfl, rfl, rfl, ?_⟩
  · exact (step_of_event ha).trans (hostStep_start_of_not_busy w hs)
  · have hl : illegalWord w = false := (illegalWord_eq_false_iff w).2 ⟨i, hw⟩
    rw [step_of_event (rest := rest) rfl]
    exact coreTurn_of_command (s := startCall w { s with agenda := rest }) rfl hl (decodeLatch_opcField hw)

/-! ### Which steps write the host-visible elements (R21 to R29) -/

/-- What the core's turn can write: nothing unless BUSY, and IDX only where a command that delivers an index succeeds. -/
structure CoreWrites (s t : State) : Prop where
  capr : t.capr = s.capr
  cmd : t.cmd = s.cmd
  busy : t.status ≠ s.status ∨ t.mem ≠ s.mem ∨ t.idx ≠ s.idx → s.status = .busy
  idx : t.idx ≠ s.idx → t.status = .done ∧ ∃ i, decodeLatch s.lcmd = some i ∧ writesIdx i = true

theorem complete_capr_cmd (r : Except ErrorKind Handover) (s : State) :
    (complete r s).capr = s.capr ∧ (complete r s).cmd = s.cmd := by
  cases r with
  | ok h => exact ⟨rfl, rfl⟩
  | error k => exact ⟨rfl, rfl⟩

/-- A completion that leaves another IDX is a success of BWT_FWD or SER_RD (R85). -/
theorem writesIdx_of_complete_idx_ne {i : Instr} {s : State} (h : (complete (unitResult i s) s).idx ≠ s.idx) :
    (complete (unitResult i s) s).status = .done ∧ writesIdx i = true := by
  obtain ⟨k, -, hr⟩ | ⟨g, hr, -, hidx⟩ := unitResult_cases i s
  · rw [hr] at h
    exact absurd rfl h
  · rw [hr, complete_ok, succeed_idx] at h
    refine ⟨by rw [hr, complete_ok, succeed_status], hidx.symm.trans ?_⟩
    rw [Option.isSome_iff_ne_none]
    rintro hnone
    exact h (by rw [hnone, Option.getD_none])

theorem coreTurn_writes {s t : State} (h : coreTurn s = .next t) : CoreWrites s t := by
  obtain ⟨-, rfl⟩ | ⟨hb, -, rfl⟩ | ⟨hb, -, i, hi, rfl⟩ := coreTurn_cases h
  · exact ⟨rfl, rfl, fun hne => by simp at hne, fun hne => absurd rfl hne⟩
  · exact ⟨rfl, rfl, fun _ => hb, fun hne => absurd rfl hne⟩
  · obtain ⟨hcapr, hcmd⟩ := complete_capr_cmd (unitResult i s) s
    refine ⟨hcapr, hcmd, fun _ => hb, fun hne => ?_⟩
    obtain ⟨hdone, hw⟩ := writesIdx_of_complete_idx_ne hne
    exact ⟨hdone, i, hi, hw⟩

/-- What a host transaction can write, and which transaction it was then. -/
structure HostWrites (tr : Transaction) (s t : State) : Prop where
  capr : t.capr = s.capr
  start : t.status ≠ s.status ∨ t.cmd ≠ s.cmd ∨ t.mem.obuf ≠ s.mem.obuf → ∃ w, tr = .start w ∨ tr = .writeReg 0 w
  load : t.mem.ibuf ≠ s.mem.ibuf → ∃ seq, tr = .load seq
  setIdx : t.idx ≠ s.idx → ∃ v, tr = .setIdx v ∨ tr = .writeReg 3 v

theorem answer_writes (tr : Transaction) (r : Reply) (s : State) : HostWrites tr s (answer r s) where
  capr := rfl
  start h := by simp at h
  load h := absurd rfl h
  setIdx h := absurd rfl h

theorem hostStep_writes {tr : Transaction} {s t : State} (h : hostStep tr s = .next t) : HostWrites tr s t := by
  obtain ⟨seq, rfl, -, -, rfl⟩ | ⟨v, htr, -, rfl⟩ | ⟨w, htr, -, rfl⟩ | ⟨-, -, rfl⟩ | ⟨reg, v, -, -, -, rfl⟩ |
    ⟨off, b, -, -, -, rfl⟩ := hostStep_cases h
  · exact ⟨rfl, fun hne => by simp at hne, fun _ => ⟨seq, rfl⟩, fun hne => absurd rfl hne⟩
  · exact ⟨rfl, fun hne => by simp at hne, fun hne => absurd rfl hne, fun _ => ⟨v, htr⟩⟩
  · exact ⟨rfl, fun _ => ⟨w, htr⟩, fun hne => absurd rfl hne, fun hne => absurd rfl hne⟩
  · exact answer_writes _ _ s
  · exact answer_writes _ _ s
  · exact answer_writes _ _ s

/-- Every step by what it can write: the core's, the host's by its transaction, RESET all but CAPR, XFER none of these. -/
theorem step_writes {s t : State} (h : step s = .next t) :
    ((s.agenda = [] ∨ ∃ rest, s.agenda = .core :: rest) ∧ CoreWrites s t) ∨
    (∃ tr rest, s.agenda = .host tr :: rest ∧ HostWrites tr s t) ∨
    (∃ rest, s.agenda = .reset :: rest ∧ t.capr = s.capr) ∨
    ∃ r agenda, t = answer r { s with agenda := agenda } := by
  obtain ⟨ha, hcore⟩ | ⟨rest, ha, hcore⟩ | ⟨tr, rest, ha, hhost⟩ | ⟨rest, ha, rfl⟩ | ⟨rest, -, -, rfl⟩ := step_cases h
  · exact .inl ⟨.inl ha, coreTurn_writes hcore⟩
  · exact .inl ⟨.inr ⟨rest, ha⟩, { coreTurn_writes hcore with }⟩
  · exact .inr (.inl ⟨tr, rest, ha, { hostStep_writes hhost with }⟩)
  · exact .inr (.inr (.inl ⟨rest, ha, rfl⟩))
  · exact .inr (.inr (.inr ⟨_, _, rfl⟩))

/-- Settles O60: an element that a step changed shows whose turn it was and what it was for. -/
theorem onlyTheseStepsWrite : Obligations.OnlyTheseStepsWrite := by
  intro s t ht startTurn completion resetTurn
  obtain ⟨hturn, hcapr, hcmd, hbusy, hidx⟩ | ⟨tr, rest, ha, hcapr, hstart, hload, hsetIdx⟩ | ⟨rest, ha, hcapr⟩ |
    ⟨r, agenda, rfl⟩ := step_writes ht
  · have completes : t.status ≠ s.status ∨ t.mem ≠ s.mem ∨ t.idx ≠ s.idx → completion := fun hne => ⟨hbusy hne, hturn⟩
    have completes_of_mem {α : Type} (part : Memory → α) (hne : part t.mem ≠ part s.mem) : completion :=
      completes (.inr (.inl fun heq => hne (congrArg part heq)))
    exact ⟨hcapr, fun hne => .inr (.inl (completes (.inl hne))), fun hne => absurd hcmd hne,
      fun hne => .inr (.inl (completes_of_mem Memory.obuf hne)), fun hne => .inl (completes_of_mem Memory.ibuf hne),
      fun hne => .inr (.inr ⟨completes (.inr (.inr hne)), hidx hne⟩)⟩
  · have start : t.status ≠ s.status ∨ t.cmd ≠ s.cmd ∨ t.mem.obuf ≠ s.mem.obuf → startTurn := by
      intro hne
      obtain ⟨w, rfl | rfl⟩ := hstart hne
      · exact ⟨w, rest, .inl ha⟩
      · exact ⟨w, rest, .inr ha⟩
    refine ⟨hcapr, fun hne => .inl (start (.inl hne)), fun hne => .inl (start (.inr (.inl hne))),
      fun hne => .inl (start (.inr (.inr hne))), fun hne => ?_, fun hne => ?_⟩
    · obtain ⟨seq, rfl⟩ := hload hne
      exact .inr (.inr ⟨seq, rest, ha⟩)
    · obtain ⟨v, rfl | rfl⟩ := hsetIdx hne
      · exact .inr (.inl ⟨v, rest, .inl ha⟩)
      · exact .inr (.inl ⟨v, rest, .inr ha⟩)
  · have hreset : resetTurn := ⟨rest, ha⟩
    exact ⟨hcapr, fun _ => .inr (.inr hreset), fun _ => .inr hreset, fun _ => .inr (.inr hreset), fun _ => .inr (.inl hreset),
      fun _ => .inl hreset⟩
  · exact ⟨rfl, fun hne => absurd rfl hne, fun hne => absurd rfl hne, fun hne => absurd rfl hne, fun hne => absurd rfl hne,
      fun hne => absurd rfl hne⟩

end Sys2Proof.Machine

/-! ## The host script ROUNDTRIP (30_encoding.md R84, 44_pipeline.md R167) -/

namespace Sys2Proof.Machine

/-! ### A call whose output the host reads (R82, R187) -/

/-- A call has succeeded with the output `out`, the host has read it, and these turns come next. -/
structure OutputRead (t : State) (out : Bytes) (idx capr : Word) (turns : List Event) : Prop where
  status : t.status = .done
  mem : t.mem = ⟨[], out⟩
  idx : t.idx = idx
  capr : t.capr = capr
  agenda : t.agenda = turns
  reply : t.replies.head? = some (.sequence out)

theorem CallSucceeds.mem {s t : State} {out : Bytes} {idx : Word} (h : CallSucceeds s t out idx) : t.mem = ⟨[], out⟩ := by
  rw [← h.ibuf, ← h.obuf]

/-- `START`, `WAIT` and `READ` of a command that succeeds on these operands. -/
theorem runs_callRead {s : State} {i : Instr} {polls : Nat} {input out : Bytes} {idx idx' capr : Word} {rest : List Event}
    (hexec : ∀ u, Operands u input idx capr → ∃ v, exec i u = .next v ∧ CallSucceeds u v out idx')
    (h : Ready s input idx capr (callTurns polls i (.host .readOut :: rest))) :
    ∃ t, Runs s (polls + 3 + 1) t ∧ OutputRead t out idx' capr rest := by
  obtain ⟨u, v, t, hu, hv, hcall, ht, hcapr, hagenda⟩ := runs_call h
  obtain ⟨v', hv', hs⟩ := hexec u hu
  cases hv.symm.trans hv'
  have hdone : t.status = .done := ht.status.trans hs.status
  have hmem : t.mem = ⟨[], out⟩ := ht.mem.trans hs.mem
  have hread : Runs t 1 (answer (.sequence t.mem.obuf) { t with agenda := rest }) :=
    .of_event hagenda (hostStep_readOut_of_not_busy (by simp [hdone]))
  exact ⟨_, hcall.trans hread,
    { status := hdone, mem := hmem, idx := ht.idx.trans hs.idx, capr := hcapr.trans (hs.capr.trans hu.capr), agenda := rfl,
      reply := by rw [hmem]; rfl }⟩

/-! ### COMPRESS and DECOMPRESS on the same block (R167) -/

/-- A small input has a container that COMPRESS makes of it and DECOMPRESS takes apart. -/
theorem exists_container {S : Bytes} {capr : Word} (idx : Word) (hne : S ≠ []) (hsmall : 2 * S.length + 4 ≤ capr.toNat) :
    ∃ X : Bytes, X.length ≤ capr.toNat ∧
      (∀ u, Operands u S idx capr → ∃ v, exec .compress u = .next v ∧ CallSucceeds u v X idx) ∧
      ∀ u, Operands u X idx capr → ∃ v, exec .decompress u = .next v ∧ CallSucceeds u v S idx := by
  obtain ⟨L, k, R, B, hL, hR, hB, hlen⟩ := exists_images hne
  have hB2 : B.length ≤ 2 * R.length := hB.length_le
  have hk : (BitVec.ofNat 32 k).toNat = k := by
    obtain ⟨-, -, hlt⟩ := hL.eq_unit
    exact Nat.mod_eq_of_lt (by have := capr.isLt; omega)
  refine ⟨headerBytes (BitVec.ofNat 32 k) ++ B, ?_, ?_, ?_⟩
  · rw [List.length_append, headerBytes_length]
    omega
  · rintro u ⟨rfl, rfl, rfl⟩
    have hfits : 4 + B.length ≤ u.cap := by rw [State.cap]; omega
    exact exec_compress_of_le hne hL hR hB hfits
  · rintro u ⟨hX, rfl, rfl⟩
    have hfits : S.length ≤ u.cap := by rw [State.cap]; omega
    exact exec_decompress_of_images (hk.symm ▸ hL) hR hB hX hfits

/-! ### The script -/

/-- The turns of ROUNDTRIP behind its `LOAD`. -/
def roundTripTurns (polls : Nat) : List Event :=
  callTurns polls .compress (.host .readOut :: .xfer :: callTurns polls .decompress [.host .readOut])

theorem roundTripScript_events (polls : Nat) (S : Bytes) :
    scriptEvents polls [.roundtrip S] = .host (.load S) :: roundTripTurns polls := by
  simp [scriptEvents, lineEvents, callEvents, roundTripTurns, callTurns]

/-- XFER is one turn of the schedule and two steps. -/
theorem roundTripScript_steps (polls : Nat) (S : Bytes) : (scriptEvents polls [.roundtrip S]).length + 1 =
    1 + (polls + 3 + 1 + (2 + (polls + 3 + 1))) := by
  simp [roundTripScript_events, roundTripTurns, callTurns_length]
  omega

/-- From a loaded input: the first call delivers the container, XFER loads it, the second call delivers the input. -/
theorem runs_roundTrip {s : State} {polls : Nat} {S : Bytes} {idx capr : Word} (hne : S ≠ [])
    (hsmall : 2 * S.length + 4 ≤ capr.toNat) (h : Ready s S idx capr (roundTripTurns polls)) :
    ∃ t, Runs s (polls + 3 + 1 + (2 + (polls + 3 + 1))) t ∧ OutputRead t S idx capr [] := by
  obtain ⟨X, hX, hcompress, hdecompress⟩ := exists_container idx hne hsmall
  obtain ⟨t, hfirst, ht⟩ := runs_callRead hcompress h
  obtain ⟨u, hxfer, hu⟩ := runs_xfer ht.agenda ht.status (by rw [State.cap, ht.mem, ht.capr]; exact hX)
  rw [ht.mem, ht.idx, ht.capr] at hu
  obtain ⟨v, hsecond, hv⟩ := runs_callRead hdecompress hu
  exact ⟨v, hfirst.trans (hxfer.trans hsecond), hv⟩

/-- Settles O54: the load makes the block ready, and the calls around XFER undo each other. -/
theorem roundTripScriptReturnsInput : Obligations.RoundTripScriptReturnsInput := by
  intro s polls S hs hne hsmall
  obtain ⟨t, hload, ht⟩ := runs_load (s := { s with agenda := scriptEvents polls [.roundtrip S] })
    (roundTripScript_events polls S) hs (show S.length ≤ s.cap by omega)
  obtain ⟨u, hrun, hu⟩ := runs_roundTrip hne hsmall ht
  rw [roundTripScript_steps]
  exact ⟨u, hload.trans hrun, hu.status, congrArg Memory.obuf hu.mem, congrArg Memory.ibuf hu.mem, hu.idx, hu.reply, hu.agenda⟩

end Sys2Proof.Machine
